-- ==== Sys2Proof/Word.lean ====
section
/-! DEFINITION. The word types of the tiny-vm core (spec/00_scope.md R8, R11): a bit pattern carries no sign,
each operation says how it reads one. -/

namespace Sys2Proof

/-- An 8-bit field of an instruction word: the opcode or a register index (OPCODE_BITS, REGFIELD_BITS). -/
abbrev Byte := BitVec 8

/-- A register, a data word, an immediate or a pc: 32 bits (REG_BITS, IMM_BITS, PC_BITS; R11, R23). -/
abbrev Word := BitVec 32

/-- An instruction word: 64 bits (WORD_BITS; spec/30_encoding.md R71). -/
abbrev InstrWord := BitVec 64

end Sys2Proof
end

