-- ==== Sys2Proof/Syntax.lean ====
section
/-! DEFINITION. The instructions of spec/opcode_table.json, each with the fields it uses (spec/30_encoding.md R75).
Fields an opcode ignores are no part of the instruction (R76; log 10). -/

namespace Sys2Proof

/-- One constructor per opcode of R78, and one for the unrecognized opcodes (R80's UNKNOWN; log 9).
`a`, `b`, `c` are the 8-bit register-index fields A, B, C: any of the 256 values (R73). -/
inductive Instr where
  /-- 0x00, R110 -/
  | halt
  /-- 0x01, R111 -/
  | nop
  /-- 0x02 `li rA, imm`, R120 -/
  | li (a : Byte) (imm : Word)
  /-- 0x03 `lw rA, rB`, R121 -/
  | lw (a b : Byte)
  /-- 0x04 `sw rA, rB`, R122 -/
  | sw (a b : Byte)
  /-- 0x05 `add rA, rB, rC`, R130 -/
  | add (a b c : Byte)
  /-- 0x06 `sub rA, rB, rC`, R131 -/
  | sub (a b c : Byte)
  /-- 0x07 `mult rA, rB, rC`, R132 -/
  | mult (a b c : Byte)
  /-- 0x08 `div rA, rB, rC`, R133 -/
  | div (a b c : Byte)
  /-- 0x09 `j imm`, R150 -/
  | j (imm : Word)
  /-- 0x0A `jr rA`, R151 -/
  | jr (a : Byte)
  /-- 0x0B `beq rA, rB, rC`, R152 -/
  | beq (a b c : Byte)
  /-- 0x0C `bne rA, rB, rC`, R153 -/
  | bne (a b c : Byte)
  /-- 0x0D `inc rA`, R160 -/
  | inc (a : Byte)
  /-- 0x0E `dec rA`, R161 -/
  | dec (a : Byte)
  /-- 0x0F to 0xFF, R170 -/
  | unrecognized (opcode : Byte)
  deriving DecidableEq, Repr

end Sys2Proof
end

