-- ==== Sys2Proof/WellFormed.lean ====
section
/-! DEFINITION. Which terms of Instr stand for encodings. Register fields admit all 256 values: their range is
checked at execute time (spec/30_encoding.md R73), so the only check is on the unrecognized opcode. -/

namespace Sys2Proof

/-- The first unrecognized opcode (spec/46_unrecognized.md R170). -/
def firstUnrecognized : Byte := 0x0F

/-- An unrecognized instruction carries an opcode of 0x0F to 0xFF (R79, R170). -/
def Instr.wf : Instr → Bool
  | .unrecognized opcode => decide (firstUnrecognized.toNat ≤ opcode.toNat)
  | .halt => true
  | .nop => true
  | .li _ _ => true
  | .lw _ _ => true
  | .sw _ _ => true
  | .add _ _ _ => true
  | .sub _ _ _ => true
  | .mult _ _ _ => true
  | .div _ _ _ => true
  | .j _ => true
  | .jr _ => true
  | .beq _ _ _ => true
  | .bne _ _ _ => true
  | .inc _ => true
  | .dec _ => true

end Sys2Proof
end

