-- ==== Sys2Proof/Decode.lean ====
section
/-! DEFINITION. The instruction_decoder (spec/30_encoding.md; spec/10_state.md R40): a total function of one 64-bit
word, and after it the encoder, both written from the field table R70 and the opcode map R78. -/

namespace Sys2Proof

/-- The five fields of an instruction word (R70). -/
structure Fields where
  opcode : Byte
  a : Byte
  b : Byte
  c : Byte
  imm : Word
  deriving DecidableEq, Repr

/-- `w[63:56]` (R72). -/
def fieldOpcode (w : InstrWord) : Byte := w.extractLsb' 56 8
/-- `w[55:48]` (R73). -/
def fieldA (w : InstrWord) : Byte := w.extractLsb' 48 8
/-- `w[47:40]` (R73). -/
def fieldB (w : InstrWord) : Byte := w.extractLsb' 40 8
/-- `w[39:32]` (R73). -/
def fieldC (w : InstrWord) : Byte := w.extractLsb' 32 8
/-- `w[31:0]`, with no extension, shift or scaling (R74). -/
def fieldImm (w : InstrWord) : Word := w.extractLsb' 0 32

/-- The fields of a word (R70, R40). -/
def fieldsOf (w : InstrWord) : Fields :=
  { opcode := fieldOpcode w, a := fieldA w, b := fieldB w, c := fieldC w, imm := fieldImm w }

/-- `w = opcode ++ A ++ B ++ C ++ imm` (R70). -/
def Fields.word (f : Fields) : InstrWord := f.opcode ++ f.a ++ f.b ++ f.c ++ f.imm

/-- The decoder's `op` output (R40, R80). -/
inductive Op where
  | halt | nop | li | lw | sw | add | sub | mult | div | j | jr | beq | bne | inc | dec | unknown
  deriving DecidableEq, Repr

/-- `decode_op` of R80, on the opcode alone (R72): total, and unrecognized opcodes have a result of their own (R99). -/
def decodeOp (opcode : Byte) : Op :=
  match opcode.toNat with
  | 0x00 => .halt
  | 0x01 => .nop
  | 0x02 => .li
  | 0x03 => .lw
  | 0x04 => .sw
  | 0x05 => .add
  | 0x06 => .sub
  | 0x07 => .mult
  | 0x08 => .div
  | 0x09 => .j
  | 0x0A => .jr
  | 0x0B => .beq
  | 0x0C => .bne
  | 0x0D => .inc
  | 0x0E => .dec
  | _ => .unknown

/-- The instruction of a word's fields: the ones its opcode uses (R75), the others ignored (R76). -/
def instrOf (f : Fields) : Instr :=
  match decodeOp f.opcode with
  | .halt => .halt
  | .nop => .nop
  | .li => .li f.a f.imm
  | .lw => .lw f.a f.b
  | .sw => .sw f.a f.b
  | .add => .add f.a f.b f.c
  | .sub => .sub f.a f.b f.c
  | .mult => .mult f.a f.b f.c
  | .div => .div f.a f.b f.c
  | .j => .j f.imm
  | .jr => .jr f.a
  | .beq => .beq f.a f.b f.c
  | .bne => .bne f.a f.b f.c
  | .inc => .inc f.a
  | .dec => .dec f.a
  | .unknown => .unrecognized f.opcode

/-- Every 64-bit word decodes: no word is an illegal instruction (R81). -/
def decode (w : InstrWord) : Instr := instrOf (fieldsOf w)

/-- The canonical fields of an instruction: unused fields are 0 (R77, R86). -/
def Instr.fields : Instr → Fields
  | .halt => ⟨0x00, 0, 0, 0, 0⟩
  | .nop => ⟨0x01, 0, 0, 0, 0⟩
  | .li a imm => ⟨0x02, a, 0, 0, imm⟩
  | .lw a b => ⟨0x03, a, b, 0, 0⟩
  | .sw a b => ⟨0x04, a, b, 0, 0⟩
  | .add a b c => ⟨0x05, a, b, c, 0⟩
  | .sub a b c => ⟨0x06, a, b, c, 0⟩
  | .mult a b c => ⟨0x07, a, b, c, 0⟩
  | .div a b c => ⟨0x08, a, b, c, 0⟩
  | .j imm => ⟨0x09, 0, 0, 0, imm⟩
  | .jr a => ⟨0x0A, a, 0, 0, 0⟩
  | .beq a b c => ⟨0x0B, a, b, c, 0⟩
  | .bne a b c => ⟨0x0C, a, b, c, 0⟩
  | .inc a => ⟨0x0D, a, 0, 0, 0⟩
  | .dec a => ⟨0x0E, a, 0, 0, 0⟩
  | .unrecognized opcode => ⟨opcode, 0, 0, 0, 0⟩

/-- The canonical word of an instruction (R77, R86). -/
def encode (i : Instr) : InstrWord := i.fields.word

/-- The fields an opcode uses as a mask: all ones in a used field, 0 in an ignored one (R75, R76). -/
def usedMask : Op → Fields
  | .halt => ⟨0xFF, 0, 0, 0, 0⟩
  | .nop => ⟨0xFF, 0, 0, 0, 0⟩
  | .li => ⟨0xFF, 0xFF, 0, 0, 0xFFFFFFFF⟩
  | .lw => ⟨0xFF, 0xFF, 0xFF, 0, 0⟩
  | .sw => ⟨0xFF, 0xFF, 0xFF, 0, 0⟩
  | .add => ⟨0xFF, 0xFF, 0xFF, 0xFF, 0⟩
  | .sub => ⟨0xFF, 0xFF, 0xFF, 0xFF, 0⟩
  | .mult => ⟨0xFF, 0xFF, 0xFF, 0xFF, 0⟩
  | .div => ⟨0xFF, 0xFF, 0xFF, 0xFF, 0⟩
  | .j => ⟨0xFF, 0, 0, 0, 0xFFFFFFFF⟩
  | .jr => ⟨0xFF, 0xFF, 0, 0, 0⟩
  | .beq => ⟨0xFF, 0xFF, 0xFF, 0xFF, 0⟩
  | .bne => ⟨0xFF, 0xFF, 0xFF, 0xFF, 0⟩
  | .inc => ⟨0xFF, 0xFF, 0, 0, 0⟩
  | .dec => ⟨0xFF, 0xFF, 0, 0, 0⟩
  | .unknown => ⟨0xFF, 0, 0, 0, 0⟩

/-- The bits of a word that its opcode uses. -/
def usedBits (op : Op) : InstrWord := (usedMask op).word

/-- The instruction word an opcode-table row's bits stand for: bits above `nbits` are 0. -/
def tableWord (nbits w : Nat) : InstrWord := BitVec.ofNat 64 (w % 2 ^ nbits)

/-- What the decoder reads from the bits of an opcode-table row. An instruction is exactly 64 bits (R71), so a
longer row is no instruction (log 11). -/
def decodeTableWord (nbits w : Nat) : Option Instr :=
  if nbits ≤ 64 then some (decode (tableWord nbits w)) else none

end Sys2Proof
end

