-- ==== Sys2Proof/Machine/Alu.lean ====
section
/-! DEFINITION. The readings of a 32-bit pattern and the integer operators (spec/00_scope.md R11, R13;
spec/43_arithmetic.md R134): compute the exact integer, then keep it mod 2^32. -/

namespace Sys2Proof.Machine

/-- `s32(v)`: the integer v denotes in two's complement (R11). -/
def s32 (v : Word) : Int := v.toInt
/-- `u32(v)`: the integer v denotes unsigned (R11). -/
def u32 (v : Word) : Nat := v.toNat
/-- `bits32(n)`: the pattern of n mod 2^32 (R11). -/
def bits32 (n : Int) : Word := BitVec.ofInt 32 n

/-- `a +32 b` (R13). -/
def add32 (a b : Word) : Word := bits32 (s32 a + s32 b)
/-- `a -32 b` (R13). -/
def sub32 (a b : Word) : Word := bits32 (s32 a - s32 b)
/-- `a *32 b` (R13). -/
def mul32 (a b : Word) : Word := bits32 (s32 a * s32 b)
/-- `tdiv(n, d)`: the quotient rounded toward zero, for d not 0 (R13, D8; log 14). -/
def tdiv (n d : Int) : Int := Int.tdiv n d
/-- The pattern of the quotient (R133). -/
def div32 (n d : Word) : Word := bits32 (tdiv (s32 n) (s32 d))

/-- `bits32(u32(p) + 1)`: the next program index, mod 2^32 (R23, R93). -/
def nextIndex (p : Word) : Word := bits32 (u32 p + 1)

end Sys2Proof.Machine
end

