-- ==== Sys2Proof/Config.lean ====
section
/-! DEFINITION. The implementation parameters of spec/00_scope.md R8 and the values the spec leaves unspecified. -/

namespace Sys2Proof.Config

/-- The two parameters whose literals are unaudited, which a model takes as arguments (R8, D24): NUM_REGS and MEM_WORDS.
A reset takes them, a state has them (`State.params`), and no rule names a value of them (log 1). -/
structure Params where
  /-- NUM_REGS, the register count (R20). -/
  numRegs : Nat
  /-- MEM_WORDS, the data memory's size in 32-bit words (R26). -/
  memWords : Nat
  deriving DecidableEq, Repr

/-- The values R8 sets by default: 4 registers and 65535 words, not 65536. Only `State.reset` uses them (log 1). -/
def defaultParams : Params := { numRegs := 4, memWords := 65535 }

/-- The largest program length N: a 32-bit pc indexes at most 2^32 words (R24, D23). -/
def maxProgramWords : Nat := 2 ^ 32

/-- The byte orders a program file can have (spec/20_memory.md R54, D16). -/
inductive ByteOrder where
  | bigEndian
  | littleEndian
  deriving DecidableEq, Repr, Inhabited

/-- What a loader does with a partial last word (spec/70_reset_and_hazards.md R214, D16). -/
inductive LoaderTail where
  | refuse
  | dropPartial
  deriving DecidableEq, Repr, Inhabited

/-- Which pc a trace line shows (spec/40_execution_cycle.md R103). -/
inductive TracePcSelect where
  | pcPost
  | pcNext
  deriving DecidableEq, Repr, Inhabited

/-- The exit status a host reports (spec/70_reset_and_hazards.md R216). -/
inductive ExitStatus where
  | success
  | failure
  deriving DecidableEq, Repr, Inhabited

/-- PROGRAM_BYTE_ORDER, OPEN (R8, D16; log 13): no value is chosen. -/
opaque programByteOrder : ByteOrder

/-- LOADER_TAIL, OPEN (R8, D16; log 13): no value is chosen. -/
opaque loaderTail : LoaderTail

/-- TRACE_PC_SELECT, with the default the spec states (R103, D26). -/
def tracePcSelect : TracePcSelect := .pcPost

/-- TRACE_TEXT_FORMAT, OPEN (R8, R103, D26; log 13): from the digit groups of a line to its text. -/
opaque traceTextFormat : List (List Nat) → String

/-- HOST_FAULT_EXIT, OPEN (R8, D27; log 13): no value is chosen. -/
opaque hostFaultExit : ExitStatus

/-- The data outputs of the execution_engine that an enable or a request qualifies (spec/10_state.md R44). -/
inductive EngineDatum where
  | widx
  | wdata
  | maddr
  | mwdata
  | pcTarget
  | faultCause
  | faultInfo
  deriving DecidableEq, Repr, Inhabited

/-- What a data output of the engine carries while nothing qualifies it: R44 and R96 do not say. DESIGN CHOICE: a free
value for each output and opcode, wide enough for any of them (log 18). -/
opaque undriven : EngineDatum → Byte → Word

/-- The read data of a register port whose index names no register: unspecified (spec/10_state.md R41, U13; log 12). -/
opaque unspecifiedRegData : Byte → Word

/-- The read data of the data port on an out-of-range address (R42; log 12): not stated, never used. -/
opaque unspecifiedMemData : Word → Word

/-- The word of the fetch port when it is not valid (R42; log 12): not stated, never used. -/
opaque unspecifiedFetchWord : Word → InstrWord

end Sys2Proof.Config
end

