-- ==== Sys2Proof/Machine/State.lean ====
section
/-! DEFINITION. The state of the core (spec/10_state.md) as plain data, the reasons a step can stop, and the state
after reset. -/

namespace Sys2Proof.Machine

/-- The register file: NUM_REGS registers of 32 bits, none hardwired (R20). NUM_REGS is its length (log 1). -/
abbrev RegFile := List Word

/-- Words of width `w` by index: indices strictly rising, no word listed that is 0. An unlisted word reads 0
(spec/20_memory.md R60 for the data memory; log 3). A cell is a whole word, the smallest unit either space
addresses (R51, R52; log 4). -/
abbrev Cells (w : Nat) := List (Nat × BitVec w)

/-- The data memory: MEM_WORDS and the words M[0..MEM_WORDS-1] (R26). -/
structure Memory where
  size : Nat
  cells : Cells 32
  deriving DecidableEq, Repr

/-- The program store: N and the words P[0..N-1] (R24). -/
structure ProgramStore where
  length : Nat
  cells : Cells 64
  deriving DecidableEq, Repr

/-- The fault record FR (R29). -/
structure FaultRecord where
  cause : BitVec 8
  pc : Word
  wordValid : Bool
  word : InstrWord
  info : Word
  deriving DecidableEq, Repr

/-- FR with every field 0: no fault (R36). -/
def FaultRecord.none : FaultRecord := { cause := 0, pc := 0, wordValid := false, word := 0, info := 0 }

/-- What a cycle has fetched: the index `p` and the word `w` of R98. -/
structure Fetched where
  pc : Word
  word : InstrWord
  deriving DecidableEq, Repr

/-- The trace record of a completed cycle (R101). -/
structure TraceRecord where
  pcFetch : Word
  pcPost : Word
  pcNext : Word
  word : InstrWord
  regs : RegFile
  deriving DecidableEq, Repr

/-- The state of the core. `fetched` and `trace` are the model's own: `fetched` holds what the cycle in progress has
fetched and is `none` between cycles (R34, R90; log 5), `trace` holds the records the trace output has emitted since
reset, oldest first (R101, R102; log 8). -/
structure State where
  x : RegFile
  pc : Word
  prog : ProgramStore
  mem : Memory
  run : Bool
  fr : FaultRecord
  fetched : Option Fetched
  trace : List TraceRecord
  deriving DecidableEq, Repr

/-- Why `step` has no next state. The faults of spec/60_exceptions.md are not here: taking one is a next state, with
FR written (R186). -/
inductive Fault where
  /-- `step` in HALTED: "the core has no step, and the state is final" (spec/40_execution_cycle.md R91; log 6). Safe. -/
  | noStepHalted
  /-- `step` in FAULTED: no step until reset (R91, R189; log 6). Safe. -/
  | noStepFaulted
  /-- `step` in the unreachable combination RUN = 0 with FR.cause not 0 (spec/10_state.md R30; log 7). Safe. -/
  | impossibleControlState
  deriving DecidableEq, Repr

/-- Why the model gives no meaning. No arm of `exec` answers one: every instruction is modelled. -/
inductive Refusal where
  /-- An arm of `exec` without a meaning yet. Safe. -/
  | notModelled (mnemonic : String)
  deriving DecidableEq, Repr

/-- The state right after reset (R36, spec/70_reset_and_hazards.md R210) of a core with these parameters (R8), with no
program loaded: N = 0 (log 2). -/
def State.resetOf (p : Config.Params) : State :=
  { x := List.replicate p.numRegs 0
    pc := 0
    prog := { length := 0, cells := [] }
    mem := { size := p.memWords, cells := [] }
    run := true
    fr := FaultRecord.none
    fetched := none
    trace := [] }

/-- The state right after reset, with the default parameters of R8. -/
def State.reset : State := State.resetOf Config.defaultParams

end Sys2Proof.Machine
end

