-- ==== Sys2Proof/Machine/Flags.lean ====
section
/-! DEFINITION. The only status state: RUN, the fault record, and the control state they make
(spec/10_state.md R28 to R31; spec/60_exceptions.md R180). No instruction computes any other flag (R31). -/

namespace Sys2Proof.Machine

/-- The control states of R30, and the combination it calls impossible. -/
inductive ControlState where
  | running
  | halted
  | faulted
  | impossible
  deriving DecidableEq, Repr

/-- The control state derived from RUN and FR.cause (R30). -/
def State.control (s : State) : ControlState :=
  if s.run then (if s.fr.cause = 0 then .running else .faulted)
  else (if s.fr.cause = 0 then .halted else .impossible)

/-- `RUN <- 0`, the effect of halt and of nothing else (R28, R110). -/
def State.clearRun (s : State) : State := { s with run := false }

/-- A register field of an instruction word (spec/30_encoding.md R73). -/
inductive RegField where
  | a
  | b
  | c
  deriving DecidableEq, Repr

/-- field_id of R180: 0 = A, 1 = B, 2 = C. -/
def RegField.id : RegField → Nat
  | .a => 0
  | .b => 1
  | .c => 2

/-- `raise <Fault>(info)`: the faults a cycle can raise, with their detail (R12, R180). -/
inductive FaultEvent where
  | fetchOutOfRange (pc : Word)
  | regIndexOutOfRange (field : RegField) (index : Byte)
  | memAddrOutOfRange (address : Word)
  | divByZero (dividend : Word)
  | divOverflow (dividend : Word)
  deriving DecidableEq, Repr

/-- FR.cause (R180). -/
def FaultEvent.code : FaultEvent → BitVec 8
  | .fetchOutOfRange _ => 1
  | .regIndexOutOfRange _ _ => 2
  | .memAddrOutOfRange _ => 3
  | .divByZero _ => 4
  | .divOverflow _ => 5

/-- FR.info (R180). -/
def FaultEvent.info : FaultEvent → Word
  | .fetchOutOfRange pc => pc
  | .regIndexOutOfRange f i => BitVec.ofNat 32 (f.id * 256 + i.toNat)
  | .memAddrOutOfRange v => v
  | .divByZero n => n
  | .divOverflow n => n

/-- The record a fault writes (R29, R186): `p` and `w` of the cycle if a word was fetched, else the pc itself, with
word_valid and word 0. -/
def FaultEvent.record (e : FaultEvent) (fetched : Option Fetched) (pc : Word) : FaultRecord :=
  match fetched with
  | some f => { cause := e.code, pc := f.pc, wordValid := true, word := f.word, info := e.info }
  | none => { cause := e.code, pc := pc, wordValid := false, word := 0, info := e.info }

end Sys2Proof.Machine
end

