-- ==== Sys2Proof/Machine/Ops.lean ====
section
/-! DEFINITION. The named operations over registers, the two memories, the pc and the cycle: what every meaning is
made of (spec/00_scope.md R12), taking a fault (spec/60_exceptions.md R186), and reset. There is no return from a
fault beside it (R187, R189): the only way out is reset. -/

namespace Sys2Proof.Machine

/-! Words by index. -/

/-- The word at an index; an unlisted one is 0. -/
def Cells.read {w : Nat} : Cells w → Nat → BitVec w
  | [], _ => 0
  | (k, v) :: rest, a => if k = a then v else Cells.read rest a

/-- The cells without those at an index. -/
def Cells.erase {w : Nat} (m : Cells w) (a : Nat) : Cells w := m.filter (fun c => c.1 != a)

/-- A cell put before the first one of a higher index. -/
def Cells.insert {w : Nat} : Cells w → Nat → BitVec w → Cells w
  | [], a, v => [(a, v)]
  | (k, u) :: rest, a, v => if a < k then (a, v) :: (k, u) :: rest else (k, u) :: Cells.insert rest a v

/-- The cells after a write. A word written 0 is unlisted, so equal contents are equal lists. -/
def Cells.write {w : Nat} (m : Cells w) (a : Nat) (v : BitVec w) : Cells w :=
  if v = 0 then m.erase a else (m.erase a).insert a v

/-- The canonical form: indices strictly rising, no word 0. -/
abbrev Cells.canonical {w : Nat} (m : Cells w) : Prop :=
  m.Pairwise (fun c d => c.1 < d.1) ∧ ∀ c ∈ m, c.2 ≠ 0

/-- The data memory's form: canonical, every index below MEM_WORDS (R26). -/
abbrev Memory.wf (m : Memory) : Prop := Cells.canonical m.cells ∧ ∀ c ∈ m.cells, c.1 < m.size

/-- The cells of a list of words from an index on. -/
def Cells.ofListFrom {w : Nat} : Nat → List (BitVec w) → Cells w
  | _, [] => []
  | i, v :: rest => if v = 0 then Cells.ofListFrom (i + 1) rest else (i, v) :: Cells.ofListFrom (i + 1) rest

/-! The data memory. -/

/-- The word at an index (R12). -/
def Memory.read (m : Memory) (a : Nat) : Word := m.cells.read a

/-- The memory after a write (R12). -/
def Memory.write (m : Memory) (a : Nat) (v : Word) : Memory := { m with cells := Cells.write m.cells a v }

/-! The program store. -/

/-- The program store of N = `ws.length` words (R24). -/
def ProgramStore.ofWords (ws : List InstrWord) : ProgramStore :=
  { length := ws.length, cells := Cells.ofListFrom 0 ws }

/-- `FetchWord(p)`, if a word exists there (R42, R92). -/
def ProgramStore.fetch (p : ProgramStore) (i : Nat) : Option InstrWord :=
  if i < p.length then some (p.cells.read i) else none

/-- The store with a word placed at an index, long enough to hold it: the loader's doing, no instruction's (R25). -/
def ProgramStore.place (p : ProgramStore) (i : Nat) (w : InstrWord) : ProgramStore :=
  { length := max p.length (i + 1), cells := p.cells.write i w }

/-- N is at most 2^32 (R24) and every listed word lies below N. -/
abbrev ProgramStore.wf (p : ProgramStore) : Prop :=
  p.length ≤ Config.maxProgramWords ∧ Cells.canonical p.cells ∧ ∀ c ∈ p.cells, c.1 < p.length

/-! The parameters of a core. -/

/-- NUM_REGS of this core (R8, R20). -/
abbrev State.numRegs (s : State) : Nat := s.x.length

/-- MEM_WORDS of this core (R8, R26). -/
abbrev State.memWords (s : State) : Nat := s.mem.size

/-- The parameters of this core (R8): no step changes them. -/
def State.params (s : State) : Config.Params := { numRegs := s.numRegs, memWords := s.memWords }

/-! Registers, data memory, pc. -/

/-- `x[i]`, for an i that CheckReg passed (R12): 0 ≤ i < NUM_REGS. -/
def State.reg (s : State) (i : Nat) : Word := s.x.getD i 0

/-- `x[i] <- v`, for an i that CheckReg passed (R12). -/
def State.setReg (s : State) (i : Nat) (v : Word) : State := { s with x := s.x.set i v }

/-- What a host reads at an 8-bit register index: none where it names no register (R22, R46). -/
def State.reg? (s : State) (i : Byte) : Option Word := s.x[i.toNat]?

/-- `MemRead(a, 1)`, for an a that CheckAddr passed (R12, R56). -/
def State.memRead (s : State) (a : Nat) : Word := s.mem.read a

/-- `MemWrite(a, 1, v)`, for an a that CheckAddr passed (R12, R56). -/
def State.memWrite (s : State) (a : Nat) (v : Word) : State := { s with mem := s.mem.write a v }

/-- `pc <- t` (R12). -/
def State.setPc (s : State) (t : Word) : State := { s with pc := t }

/-! Faults. -/

/-- TAKING A FAULT (R186): it writes FR and nothing else. The writes of the cycle are not made, because a meaning
makes its checks before its writes; the pc keeps the value it has at the point of the fault; RUN stays 1. -/
def State.takeFault (s : State) (e : FaultEvent) : State := { s with fr := e.record s.fetched s.pc }

/-- How an arm ends (R96): its effect, or the first fault its checks raised. -/
def State.attempt (s : State) (r : Except FaultEvent State) : Host.Outcome State Fault Refusal :=
  match r with
  | .ok t => .next t
  | .error e => .next (s.takeFault e)

/-! The cycle. -/

/-- Phases 2 and 3 of R90: fetch the word at the pc and increment the pc (R92, R93), or raise FetchOutOfRange with
the pc not incremented. A cycle starts with nothing fetched. -/
def State.fetch (s : State) : Except FaultEvent (InstrWord × State) :=
  match s.prog.fetch (u32 s.pc) with
  | some w => .ok (w, { s with pc := nextIndex s.pc, fetched := some { pc := s.pc, word := w } })
  | none => .error (.fetchOutOfRange s.pc)

/-- The state in which a fetch fault is taken: nothing has been fetched. -/
def State.beginCycle (s : State) : State := { s with fetched := none }

/-- The trace record of a cycle that fetched `f` and left state `s` (R101). -/
def traceRecord (f : Fetched) (s : State) : TraceRecord :=
  { pcFetch := f.pc, pcPost := nextIndex f.pc, pcNext := s.pc, word := f.word, regs := s.x }

/-- Phase 7 of R90: a cycle that completes emits its trace record, a faulting one emits none (R101, R186). Then nothing
of the cycle is left in flight (R35). -/
def State.endCycle (s : State) : State :=
  match s.fetched with
  | none => s
  | some f =>
    if s.fr.cause = 0 then { s with trace := s.trace ++ [traceRecord f s], fetched := none }
    else { s with fetched := none }

/-! Reset. -/

/-- Reset of a core with these parameters, with the program the host supplies (spec/70_reset_and_hazards.md R210): none
if it is longer than a pc can index (R24, D23). -/
def State.boot (p : Config.Params) (ws : List InstrWord) : Option State :=
  if ws.length ≤ Config.maxProgramWords then some { State.resetOf p with prog := ProgramStore.ofWords ws } else none

/-- The reset event, asserted in any state of a core, with the same effect in each (R211, R37). -/
def State.resetEvent (s : State) (ws : List InstrWord) : Option State := State.boot s.params ws

/-- The state with word `w` where the next cycle fetches, able to run it: the load of a program from outside
(log 2, log 16). -/
def State.placeFetchWord (s : State) (w : InstrWord) : State :=
  { s with prog := s.prog.place (u32 s.pc) w, run := true, fr := FaultRecord.none }

end Sys2Proof.Machine
end

