-- ==== Sys2Proof/Machine/Operands.lean ====
section
/-! DEFINITION. The operand forms of spec/30_encoding.md R75 and their checks, in the order of
spec/40_execution_cycle.md R96: every register field the opcode uses, A then B then C, then the address or divisor.
The checks take NUM_REGS and MEM_WORDS as arguments (spec/00_scope.md R8). -/

namespace Sys2Proof.Machine

/-- `CheckReg(F, i)` (R12): the register number a field names, or RegIndexOutOfRange (R22, R182). -/
def checkReg (numRegs : Nat) (f : RegField) (i : Byte) : Except FaultEvent Nat :=
  if i.toNat < numRegs then .ok i.toNat else .error (.regIndexOutOfRange f i)

/-- `CheckAddr(v)` (R12): the data index `s32(v)`, or MemAddrOutOfRange (R27, R183). -/
def checkAddr (memWords : Nat) (v : Word) : Except FaultEvent Nat :=
  if 0 ≤ s32 v ∧ s32 v < memWords then .ok (s32 v).toNat else .error (.memAddrOutOfRange v)

/-- The divisor checks of div: zero, then quotient overflow (R133, R184, R185). -/
def checkDivisor (n d : Word) : Except FaultEvent Unit :=
  if s32 d = 0 then .error (.divByZero n)
  else if s32 n = -(2 ^ 31) ∧ s32 d = -1 then .error (.divOverflow n)
  else .ok ()

/-- The registers that fields A and B name. -/
structure RegsAB where
  a : Nat
  b : Nat

/-- The registers that fields A, B and C name. -/
structure RegsABC where
  a : Nat
  b : Nat
  c : Nat

/-- A form that uses A only (li, jr, inc, dec). -/
def checkA (numRegs : Nat) (a : Byte) : Except FaultEvent Nat := checkReg numRegs .a a

/-- A form that uses A and B (lw, sw). -/
def checkAB (numRegs : Nat) (a b : Byte) : Except FaultEvent RegsAB := do
  let ra ← checkReg numRegs .a a
  let rb ← checkReg numRegs .b b
  pure { a := ra, b := rb }

/-- A form that uses A, B and C (add, sub, mult, div, beq, bne). -/
def checkABC (numRegs : Nat) (a b c : Byte) : Except FaultEvent RegsABC := do
  let ra ← checkReg numRegs .a a
  let rb ← checkReg numRegs .b b
  let rc ← checkReg numRegs .c c
  pure { a := ra, b := rb, c := rc }

/-- The register fields an instruction uses, with their values, in order (R75, R96). -/
def usedRegs : Instr → List (RegField × Byte)
  | .halt => []
  | .nop => []
  | .li a _ => [(.a, a)]
  | .lw a b => [(.a, a), (.b, b)]
  | .sw a b => [(.a, a), (.b, b)]
  | .add a b c => [(.a, a), (.b, b), (.c, c)]
  | .sub a b c => [(.a, a), (.b, b), (.c, c)]
  | .mult a b c => [(.a, a), (.b, b), (.c, c)]
  | .div a b c => [(.a, a), (.b, b), (.c, c)]
  | .j _ => []
  | .jr a => [(.a, a)]
  | .beq a b c => [(.a, a), (.b, b), (.c, c)]
  | .bne a b c => [(.a, a), (.b, b), (.c, c)]
  | .inc a => [(.a, a)]
  | .dec a => [(.a, a)]
  | .unrecognized _ => []

/-- The register fields whose registers an instruction reads (spec/10_state.md R21). -/
def readsRegs : Instr → List Byte
  | .halt => []
  | .nop => []
  | .li _ _ => []
  | .lw _ b => [b]
  | .sw a b => [a, b]
  | .add _ b c => [b, c]
  | .sub _ b c => [b, c]
  | .mult _ b c => [b, c]
  | .div _ b c => [b, c]
  | .j _ => []
  | .jr a => [a]
  | .beq a b c => [a, b, c]
  | .bne a b c => [a, b, c]
  | .inc a => [a]
  | .dec a => [a]
  | .unrecognized _ => []

/-- The register field whose register an instruction writes, if it writes one (R21). -/
def writesReg : Instr → Option Byte
  | .halt => none
  | .nop => none
  | .li a _ => some a
  | .lw a _ => some a
  | .sw _ _ => none
  | .add a _ _ => some a
  | .sub a _ _ => some a
  | .mult a _ _ => some a
  | .div a _ _ => some a
  | .j _ => none
  | .jr _ => none
  | .beq _ _ _ => none
  | .bne _ _ _ => none
  | .inc a => some a
  | .dec a => some a
  | .unrecognized _ => none

/-- The first used register field that names no register (R182, R188). -/
def firstBadReg (numRegs : Nat) (i : Instr) : Option (RegField × Byte) :=
  (usedRegs i).find? (fun p => decide (numRegs ≤ p.2.toNat))

end Sys2Proof.Machine
end

