-- ==== Sys2Proof/Machine/Arithmetic.lean ====
section
/-! DEFINITION. add, sub, mult and div (spec/43_arithmetic.md): read x[B] and x[C], write x[A]. -/

namespace Sys2Proof.Machine

/-- The shared form: check A, B, C, compute from x[B] and x[C], write x[A] (R130 to R133). -/
def threeReg (f : Word → Word → Except FaultEvent Word) (a b c : Byte) (s : State) :
    Host.Outcome State Fault Refusal :=
  s.attempt do
    let r ← checkABC s.numRegs a b c
    let v ← f (s.reg r.b) (s.reg r.c)
    pure (s.setReg r.a v)

/-- add (R130): wraps mod 2^32, no fault, no flag. -/
def execAdd (a b c : Byte) (s : State) : Host.Outcome State Fault Refusal :=
  threeReg (fun n m => .ok (add32 n m)) a b c s

/-- sub (R131): x[B] is the minuend. -/
def execSub (a b c : Byte) (s : State) : Host.Outcome State Fault Refusal :=
  threeReg (fun n m => .ok (sub32 n m)) a b c s

/-- mult (R132): the low 32 bits of the exact product. -/
def execMult (a b c : Byte) (s : State) : Host.Outcome State Fault Refusal :=
  threeReg (fun n m => .ok (mul32 n m)) a b c s

/-- div (R133): x[B] by x[C], DivByZero and DivOverflow checked first. -/
def execDiv (a b c : Byte) (s : State) : Host.Outcome State Fault Refusal :=
  threeReg (fun n d => do checkDivisor n d; pure (div32 n d)) a b c s

end Sys2Proof.Machine
end

