-- ==== Sys2Proof/Machine/ControlTransfer.lean ====
section
/-! DEFINITION. j, jr, beq and bne (spec/44_control_transfer.md): absolute program indices, never checked when
written (D7). -/

namespace Sys2Proof.Machine

/-- j (R150): `pc <- imm`. No field is checked. -/
def execJ (imm : Word) (s : State) : Host.Outcome State Fault Refusal := s.attempt (.ok (s.setPc imm))

/-- jr (R151): `pc <- x[A]`. -/
def execJr (a : Byte) (s : State) : Host.Outcome State Fault Refusal :=
  s.attempt do
    let ra ← checkA s.numRegs a
    pure (s.setPc (s.reg ra))

/-- The shared form of the branches: A, B, C are checked whether or not the branch is taken (R152, D4); the target is
x[C] (C1). -/
def branchIf (taken : Word → Word → Bool) (a b c : Byte) (s : State) : Host.Outcome State Fault Refusal :=
  s.attempt do
    let r ← checkABC s.numRegs a b c
    pure (if taken (s.reg r.a) (s.reg r.b) then s.setPc (s.reg r.c) else s)

/-- beq (R152): the comparison is over all 32 bits. -/
def execBeq (a b c : Byte) (s : State) : Host.Outcome State Fault Refusal :=
  branchIf (fun v w => v == w) a b c s

/-- bne (R153). -/
def execBne (a b c : Byte) (s : State) : Host.Outcome State Fault Refusal :=
  branchIf (fun v w => v != w) a b c s

end Sys2Proof.Machine
end

