-- ==== Sys2Proof/Machine/HaltNop.lean ====
section
/-! DEFINITION. halt and nop (spec/41_halt_nop.md). A meaning runs after the fetch and the pc increment (R98). -/

namespace Sys2Proof.Machine

/-- halt (R110): `RUN <- 0`. No field is checked. -/
def execHalt (s : State) : Host.Outcome State Fault Refusal := s.attempt (.ok s.clearRun)

/-- nop (R111): nothing. No field is checked. -/
def execNop (s : State) : Host.Outcome State Fault Refusal := s.attempt (.ok s)

end Sys2Proof.Machine
end

