-- ==== Sys2Proof/Machine/IncDec.lean ====
section
/-! DEFINITION. inc and dec (spec/45_inc_dec.md): read and write x[A], wrapping. -/

namespace Sys2Proof.Machine

/-- The shared form: `x[A] <- f x[A]`. -/
def updateReg (f : Word → Word) (a : Byte) (s : State) : Host.Outcome State Fault Refusal :=
  s.attempt do
    let ra ← checkA s.numRegs a
    pure (s.setReg ra (f (s.reg ra)))

/-- inc (R160): `x[A] <- x[A] +32 1`. -/
def execInc (a : Byte) (s : State) : Host.Outcome State Fault Refusal := updateReg (fun v => add32 v 1) a s

/-- dec (R161): `x[A] <- x[A] -32 1`. -/
def execDec (a : Byte) (s : State) : Host.Outcome State Fault Refusal := updateReg (fun v => sub32 v 1) a s

end Sys2Proof.Machine
end

