-- ==== Sys2Proof/Machine/LoadStore.lean ====
section
/-! DEFINITION. li, lw and sw (spec/42_li_lw_sw.md). The only addressing mode is register-indirect. -/

namespace Sys2Proof.Machine

/-- li (R120): `x[A] <- imm`, the pattern unchanged. -/
def execLi (a : Byte) (imm : Word) (s : State) : Host.Outcome State Fault Refusal :=
  s.attempt do
    let ra ← checkA s.numRegs a
    pure (s.setReg ra imm)

/-- lw (R121): `x[A] <- MemRead(s32(x[B]), 1)`, the address read before the register is written. -/
def execLw (a b : Byte) (s : State) : Host.Outcome State Fault Refusal :=
  s.attempt do
    let r ← checkAB s.numRegs a b
    let i ← checkAddr s.memWords (s.reg r.b)
    pure (s.setReg r.a (s.memRead i))

/-- sw (R122): `MemWrite(s32(x[B]), 1, x[A])`. -/
def execSw (a b : Byte) (s : State) : Host.Outcome State Fault Refusal :=
  s.attempt do
    let r ← checkAB s.numRegs a b
    let i ← checkAddr s.memWords (s.reg r.b)
    pure (s.memWrite i (s.reg r.a))

end Sys2Proof.Machine
end

