-- ==== Sys2Proof/Machine/Unrecognized.lean ====
section
/-! DEFINITION. The unrecognized opcodes (spec/46_unrecognized.md): an arm of their own that does nothing (R99). -/

namespace Sys2Proof.Machine

/-- An unrecognized opcode (R170): no effect, no check, never a fault or refusal (R171). -/
def execUnrecognized (_opcode : Byte) (s : State) : Host.Outcome State Fault Refusal := s.attempt (.ok s)

end Sys2Proof.Machine
end

