-- ==== Sys2Proof/Machine/Dispatch.lean ====
section
/-! DEFINITION. Dispatch of the execution engine (spec/40_execution_cycle.md R96): exactly one arm per op. -/

namespace Sys2Proof.Machine

def exec (i : Instr) (s : State) : Host.Outcome State Fault Refusal :=
  match i with
  | .halt => Sys2Proof.Machine.execHalt s
  | .nop => Sys2Proof.Machine.execNop s
  | .li a imm => Sys2Proof.Machine.execLi a imm s
  | .lw a b => Sys2Proof.Machine.execLw a b s
  | .sw a b => Sys2Proof.Machine.execSw a b s
  | .add a b c => Sys2Proof.Machine.execAdd a b c s
  | .sub a b c => Sys2Proof.Machine.execSub a b c s
  | .mult a b c => Sys2Proof.Machine.execMult a b c s
  | .div a b c => Sys2Proof.Machine.execDiv a b c s
  | .j imm => Sys2Proof.Machine.execJ imm s
  | .jr a => Sys2Proof.Machine.execJr a s
  | .beq a b c => Sys2Proof.Machine.execBeq a b c s
  | .bne a b c => Sys2Proof.Machine.execBne a b c s
  | .inc a => Sys2Proof.Machine.execInc a s
  | .dec a => Sys2Proof.Machine.execDec a s
  | .unrecognized opcode => Sys2Proof.Machine.execUnrecognized opcode s

end Sys2Proof.Machine
end

