-- ==== Sys2Proof/Machine/Step.lean ====
section
/-! DEFINITION. One step of the machine: the cycle of spec/40_execution_cycle.md R90 and R98. -/

namespace Sys2Proof.Machine

/-- A cycle, in RUNNING: fetch and increment, decode, dispatch, emit the trace record (R90). -/
def cycle (s : State) : Host.Outcome State Fault Refusal :=
  match s.fetch with
  | .error e => s.beginCycle.attempt (.error e)
  | .ok (w, t) =>
    match exec (decode w) t with
    | .next u => .next u.endCycle
    | .fault r => .fault r
    | .refused r => .refused r

/-- One step: a cycle in RUNNING; no step in HALTED or FAULTED, whose states are final (R91). -/
def step (s : State) : Host.Outcome State Fault Refusal :=
  match s.control with
  | .running => cycle s
  | .halted => .fault .noStepHalted
  | .faulted => .fault .noStepFaulted
  | .impossible => .fault .impossibleControlState

/-- The state with an opcode-table row's instruction placed where `step` fetches next (log 2, log 16). -/
def State.withFetchWord (s : State) (nbits w : Nat) : State := s.placeFetchWord (tableWord nbits w)

end Sys2Proof.Machine
end

