-- ==== Sys2Proof/Machine/Run.lean ====
section
/-! DEFINITION. A run under fuel, and its end (spec/40_execution_cycle.md R95, R100). -/

namespace Sys2Proof.Machine

/-- A run from a state: its final state if it reaches one, in which the core has no step, within so many cycles.
`none` says that the run has not ended, not that it faults (R100, U18). -/
def runToEnd : Nat → State → Option State
  | 0, s => if s.control = .running then none else some s
  | fuel + 1, s =>
    if s.control = .running then
      match step s with
      | .next t => runToEnd fuel t
      | .fault _ => none
      | .refused _ => none
    else some s

/-- The dispatches since reset: one per completed cycle, a halt cycle included and a faulting one not (R95). -/
def State.dispatches (s : State) : Nat := s.trace.length

end Sys2Proof.Machine
end

