-- ==== Sys2Proof/Machine/HostPort.lean ====
section
/-! DEFINITION. What the host can see and do (spec/10_state.md R46; spec/70_reset_and_hazards.md R216): reset with a
program (`State.boot`, `State.resetEvent`), observe, and receive the trace. It has no other operation. -/

namespace Sys2Proof.Machine

/-- What the observation port reads: x, M, pc, RUN, FR and N (R46). -/
structure Observation where
  x : RegFile
  mem : Memory
  pc : Word
  run : Bool
  fr : FaultRecord
  n : Nat
  deriving DecidableEq, Repr

/-- The observation port (R46). -/
def State.observe (s : State) : Observation :=
  { x := s.x, mem := s.mem, pc := s.pc, run := s.run, fr := s.fr, n := s.prog.length }

/-- One 32-bit data word as the host reads it: none outside the memory (R26, R46). -/
def State.observeMem (s : State) (a : Nat) : Option Word := if a < s.memWords then some (s.memRead a) else none

/-- A run the host starts: reset with a program, then cycles under fuel (R212, R216). -/
def hostRun (p : Config.Params) (fuel : Nat) (ws : List InstrWord) : Option State :=
  (State.boot p ws).bind (runToEnd fuel)

end Sys2Proof.Machine
end

