-- ==== Sys2Proof/Machine/Adapters.lean ====
section
/-! DEFINITION. What the spec fixes of the adapters around the core (spec/00_scope.md R4), over the OPEN parameters:
the program file (spec/70_reset_and_hazards.md R214), the trace line (spec/40_execution_cycle.md R103) and the exit
status (R216). No rule of the core depends on this file. -/

namespace Sys2Proof.Machine.Adapters

/-- A 64-bit word from the eight bytes of a file, first byte first (spec/20_memory.md R54). -/
def wordOfBytes (order : Config.ByteOrder) (b0 b1 b2 b3 b4 b5 b6 b7 : Byte) : InstrWord :=
  match order with
  | .bigEndian => b0 ++ b1 ++ b2 ++ b3 ++ b4 ++ b5 ++ b6 ++ b7
  | .littleEndian => b7 ++ b6 ++ b5 ++ b4 ++ b3 ++ b2 ++ b1 ++ b0

/-- The words of a program file, 8 bytes per instruction (R214), by byte order and by what becomes of a partial last
word. -/
def wordsOfBytes (order : Config.ByteOrder) (tail : Config.LoaderTail) : List Byte → Option (List InstrWord)
  | b0 :: b1 :: b2 :: b3 :: b4 :: b5 :: b6 :: b7 :: rest =>
    (wordsOfBytes order tail rest).map (wordOfBytes order b0 b1 b2 b3 b4 b5 b6 b7 :: ·)
  | [] => some []
  | _ =>
    match tail with
    | .refuse => none
    | .dropPartial => some []

/-- The loader of this hardware: PROGRAM_BYTE_ORDER and LOADER_TAIL are OPEN (log 13). -/
def loadFile (p : Config.Params) (bytes : List Byte) : Option State :=
  (wordsOfBytes Config.programByteOrder Config.loaderTail bytes).bind (State.boot p)

/-- The low `n` hex digits of a number, most significant first. -/
def hexDigits : Nat → Nat → List Nat
  | 0, _ => []
  | n + 1, v => hexDigits n (v / 16) ++ [v % 16]

/-- The pc a trace line shows (R103). -/
def shownPc (sel : Config.TracePcSelect) (r : TraceRecord) : Word :=
  match sel with
  | .pcPost => r.pcPost
  | .pcNext => r.pcNext

/-- The digit groups of a trace line, in order: pc 8 digits, word 16, each register 8 (R103). -/
def traceDigits (sel : Config.TracePcSelect) (r : TraceRecord) : List (List Nat) :=
  hexDigits 8 (shownPc sel r).toNat :: hexDigits 16 r.word.toNat :: r.regs.map (fun v => hexDigits 8 v.toNat)

/-- The trace line's text: TRACE_TEXT_FORMAT is OPEN (log 13). -/
def traceLine (r : TraceRecord) : String := Config.traceTextFormat (traceDigits Config.tracePcSelect r)

/-- The exit status of a run that ended: success after halt, HOST_FAULT_EXIT after a fault (R216, D27; log 13). -/
def exitStatus (s : State) : Option Config.ExitStatus :=
  match s.control with
  | .running => none
  | .halted => some .success
  | .faulted => some Config.hostFaultExit
  | .impossible => none

end Sys2Proof.Machine.Adapters
end

