-- ==== Sys2Proof/Machine/Assembler.lean ====
section
/-! DEFINITION. The assembly text of spec/30_encoding.md R85 to R87, from lines of characters to words. A convenience
outside the core: no rule of the machine depends on it. What R85 and R87 leave open of the text is log 15. -/

namespace Sys2Proof.Machine.Assembler

/-- An immediate operand: a number, or a label standing for its program index (R85, R87). -/
inductive Imm where
  | lit (n : Int)
  | label (name : List Char)
  deriving DecidableEq, Repr

/-- A line's instruction, one constructor per row of R86, with register numbers as written. -/
inductive Stmt where
  | halt
  | nop
  | li (a : Nat) (imm : Imm)
  | lw (a b : Nat)
  | sw (a b : Nat)
  | add (a b c : Nat)
  | sub (a b c : Nat)
  | mult (a b c : Nat)
  | div (a b c : Nat)
  | j (imm : Imm)
  | jr (a : Nat)
  | beq (a b c : Nat)
  | bne (a b c : Nat)
  | inc (a : Nat)
  | dec (a : Nat)
  | word (w : InstrWord)
  deriving DecidableEq, Repr

/-- A line: perhaps a label, perhaps an instruction. -/
structure Line where
  label : Option (List Char)
  stmt : Option Stmt
  deriving DecidableEq, Repr

/-! Words of statements. -/

/-- A register `rN` encodes N; N ≥ NUM_REGS is refused (R85). So is an N that the 8-bit field cannot hold
(spec/10_state.md R22), which matters only where NUM_REGS is above 256 (log 1). -/
def asmReg (numRegs n : Nat) : Option Byte := if n < numRegs ∧ n < 256 then some (BitVec.ofNat 8 n) else none

/-- A number encodes `bits32(value)`; a value outside −2^31 .. 2^32−1 is refused (R85). -/
def asmNum (n : Int) : Option Word := if -(2 ^ 31) ≤ n ∧ n < 2 ^ 32 then some (BitVec.ofInt 32 n) else none

/-- The program index of a label (R87). -/
def lookup (labels : List (List Char × Nat)) (name : List Char) : Option Nat :=
  (labels.find? (fun p => p.1 == name)).map Prod.snd

/-- An immediate's word. -/
def asmImm (labels : List (List Char × Nat)) : Imm → Option Word
  | .lit n => asmNum n
  | .label name => (lookup labels name).bind (fun n => asmNum n)

/-- The three register operands of a form. -/
def asmReg3 (numRegs a b c : Nat) (f : Byte → Byte → Byte → Instr) : Option InstrWord :=
  (asmReg numRegs a).bind fun ra => (asmReg numRegs b).bind fun rb =>
    (asmReg numRegs c).map fun rc => encode (f ra rb rc)

/-- The two register operands of a form. -/
def asmReg2 (numRegs a b : Nat) (f : Byte → Byte → Instr) : Option InstrWord :=
  (asmReg numRegs a).bind fun ra => (asmReg numRegs b).map fun rb => encode (f ra rb)

/-- The one register operand of a form. -/
def asmReg1 (numRegs a : Nat) (f : Byte → Instr) : Option InstrWord := (asmReg numRegs a).map fun ra => encode (f ra)

/-- The canonical word of a statement (R77, R86), or a refusal. -/
def assembleStmt (numRegs : Nat) (labels : List (List Char × Nat)) : Stmt → Option InstrWord
  | .halt => some (encode .halt)
  | .nop => some (encode .nop)
  | .li a imm => (asmImm labels imm).bind fun v => asmReg1 numRegs a (fun ra => .li ra v)
  | .lw a b => asmReg2 numRegs a b .lw
  | .sw a b => asmReg2 numRegs a b .sw
  | .add a b c => asmReg3 numRegs a b c .add
  | .sub a b c => asmReg3 numRegs a b c .sub
  | .mult a b c => asmReg3 numRegs a b c .mult
  | .div a b c => asmReg3 numRegs a b c .div
  | .j imm => (asmImm labels imm).map fun v => encode (.j v)
  | .jr a => asmReg1 numRegs a .jr
  | .beq a b c => asmReg3 numRegs a b c .beq
  | .bne a b c => asmReg3 numRegs a b c .bne
  | .inc a => asmReg1 numRegs a .inc
  | .dec a => asmReg1 numRegs a .dec
  | .word w => some w

/-- The labels of lines from a program index on: each stands for the index of the next instruction (R87), one
with none after it for N (DESIGN CHOICE, log 15). -/
def labelsFrom : Nat → List Line → List (List Char × Nat)
  | _, [] => []
  | i, l :: rest =>
    let tail := labelsFrom (if l.stmt.isSome then i + 1 else i) rest
    match l.label with
    | some name => (name, i) :: tail
    | none => tail

/-- The words of a program's lines; a label declared twice is refused (DESIGN CHOICE, log 15). -/
def assembleLines (numRegs : Nat) (ls : List Line) : Option (List InstrWord) :=
  let labels := labelsFrom 0 ls
  if (labels.map Prod.fst).Nodup then (ls.filterMap Line.stmt).mapM (assembleStmt numRegs labels) else none

/-! From characters to lines. -/

/-- A text cut at every occurrence of a character. -/
def cut (sep : Char) : List Char → List (List Char)
  | [] => [[]]
  | ch :: rest =>
    match cut sep rest with
    | [] => [[ch]]
    | p :: ps => if ch = sep then [] :: p :: ps else (ch :: p) :: ps

/-- A space or a tab, the blanks of the text (DESIGN CHOICE, log 15). -/
def isBlank (ch : Char) : Bool := ch == ' ' || ch == '\t'

/-- A text without the blanks at its ends. -/
def trim (cs : List Char) : List Char := ((cs.dropWhile isBlank).reverse.dropWhile isBlank).reverse

/-- A digit's value. -/
def digit? (base : Nat) (ch : Char) : Option Nat :=
  let v :=
    if '0' ≤ ch ∧ ch ≤ '9' then some (ch.toNat - '0'.toNat)
    else if 'a' ≤ ch ∧ ch ≤ 'f' then some (ch.toNat - 'a'.toNat + 10)
    else if 'A' ≤ ch ∧ ch ≤ 'F' then some (ch.toNat - 'A'.toNat + 10)
    else none
  v.bind fun d => if d < base then some d else none

/-- A number with at least one digit. -/
def nat? (base : Nat) : List Char → Option Nat
  | [] => none
  | cs => cs.foldl (fun acc ch => acc.bind fun n => (digit? base ch).map (n * base + ·)) (some 0)

/-- `rN` (R85). R85 writes `r0` to `r3` and does not say whether zeros may stand before the number: here they may, so
`r03` is `r3` and `r00` is `r0` (DESIGN CHOICE, log 15). -/
def reg? : List Char → Option Nat
  | 'r' :: cs => nat? 10 cs
  | _ => none

/-- A label: a letter, then letters, digits and underscores (DESIGN CHOICE, log 15). -/
def name? : List Char → Option (List Char)
  | [] => none
  | ch :: rest =>
    if ch.isAlpha && rest.all (fun d => d.isAlphanum || d == '_') then some (ch :: rest) else none

/-- A number in decimal, optionally negative, or in hex, or a label (R85, R87). Zeros may stand before a number, hex has
no sign, and what reads as a number is no label (DESIGN CHOICE, log 15). -/
def imm? : List Char → Option Imm
  | '0' :: 'x' :: cs => (nat? 16 cs).map fun n => .lit n
  | '-' :: cs => (nat? 10 cs).map fun n => .lit (-n)
  | cs =>
    match nat? 10 cs with
    | some n => some (.lit n)
    | none => (name? cs).map .label

/-- The value of `.word 0xHHHHHHHHHHHHHHHH`: 16 hex digits (R86). -/
def word? : List Char → Option InstrWord
  | '0' :: 'x' :: cs => if cs.length = 16 then (nat? 16 cs).map (BitVec.ofNat 64) else none
  | _ => none

/-- Three register operands. -/
def regs3? (f : Nat → Nat → Nat → Stmt) : List (List Char) → Option Stmt
  | [a, b, c] => (reg? a).bind fun ra => (reg? b).bind fun rb => (reg? c).map fun rc => f ra rb rc
  | _ => none

/-- Two register operands. -/
def regs2? (f : Nat → Nat → Stmt) : List (List Char) → Option Stmt
  | [a, b] => (reg? a).bind fun ra => (reg? b).map fun rb => f ra rb
  | _ => none

/-- One register operand. -/
def regs1? (f : Nat → Stmt) : List (List Char) → Option Stmt
  | [a] => (reg? a).map f
  | _ => none

/-- A mnemonic with its operands, in field order A, B, C, then imm (R85, R86). -/
def stmt? (mnemonic : List Char) (ops : List (List Char)) : Option Stmt :=
  match mnemonic, ops with
  | ['h', 'a', 'l', 't'], [] => some .halt
  | ['n', 'o', 'p'], [] => some .nop
  | ['l', 'i'], [a, v] => (reg? a).bind fun ra => (imm? v).map fun n => .li ra n
  | ['l', 'w'], _ => regs2? .lw ops
  | ['s', 'w'], _ => regs2? .sw ops
  | ['a', 'd', 'd'], _ => regs3? .add ops
  | ['s', 'u', 'b'], _ => regs3? .sub ops
  | ['m', 'u', 'l', 't'], _ => regs3? .mult ops
  | ['d', 'i', 'v'], _ => regs3? .div ops
  | ['j'], [v] => (imm? v).map .j
  | ['j', 'r'], _ => regs1? .jr ops
  | ['b', 'e', 'q'], _ => regs3? .beq ops
  | ['b', 'n', 'e'], _ => regs3? .bne ops
  | ['i', 'n', 'c'], _ => regs1? .inc ops
  | ['d', 'e', 'c'], _ => regs1? .dec ops
  | ['.', 'w', 'o', 'r', 'd'], [v] => (word? v).map .word
  | _, _ => none

/-- An instruction's text: the mnemonic up to the first blank, then operands between commas. Blanks may stand on either
side of a comma, and no comma after the last operand (DESIGN CHOICE, log 15). -/
def parseStmt (cs : List Char) : Option Stmt :=
  let mnemonic := cs.takeWhile (fun ch => !isBlank ch)
  let rest := trim (cs.drop mnemonic.length)
  stmt? mnemonic (if rest.isEmpty then [] else (cut ',' rest).map trim)

/-- A line, less its comment (R85): blank, a label, an instruction, or a label and an instruction. R87 writes `name:` at
the start of a line and does not speak of blanks: here they may stand before a label, between its name and the colon, and
after the colon, so ` loop :` declares `loop`. A line has at most one label, and a comment may start anywhere on it
(DESIGN CHOICE, log 15). -/
def parseLine (cs : List Char) : Option Line :=
  let code := trim (cs.takeWhile (· != ';'))
  let body (label : Option (List Char)) (rest : List Char) : Option Line :=
    if rest.isEmpty then some { label := label, stmt := none }
    else (parseStmt rest).map fun st => { label := label, stmt := some st }
  match cut ':' code with
  | [text] => body none text
  | [name, text] => (name? (trim name)).bind fun n => body (some n) (trim text)
  | _ => none

/-- The words of an assembly text (R85 to R87), a line feed between lines (DESIGN CHOICE, log 15). -/
def assemble (numRegs : Nat) (text : List Char) : Option (List InstrWord) :=
  ((cut '\n' text).mapM parseLine).bind (assembleLines numRegs)

end Sys2Proof.Machine.Assembler
end

