-- ==== Sys2Proof/Machine/Blocks.lean ====
section
/-! DEFINITION. The six blocks by their ports (spec/10_state.md R40 to R45) and one cycle composed from them. The
meanings of the instructions are stated once, in the families; this file is the second design of spec/00_scope.md R6,
to be held against `step`. -/

namespace Sys2Proof.Machine.Blocks

/-! instruction_decoder (R40): combinational, no state, no fault output. -/

/-- The decoder's outputs. -/
structure DecoderOut where
  opcode : Byte
  fa : Byte
  fb : Byte
  fc : Byte
  imm : Word
  op : Op
  deriving DecidableEq, Repr

/-- The decoder. -/
def decoder (word : InstrWord) : DecoderOut :=
  { opcode := fieldOpcode word, fa := fieldA word, fb := fieldB word, fc := fieldC word, imm := fieldImm word
    op := decodeOp (fieldOpcode word) }

/-! register_file (R41): three read ports, one write port. -/

/-- A read port's outputs. -/
structure ReadPort where
  rdata : Word
  rvalid : Bool
  deriving DecidableEq, Repr

/-- A read port. When rvalid is 0, rdata is unspecified: a free value (log 12). -/
def readPort (x : RegFile) (ridx : Byte) : ReadPort :=
  match x[ridx.toNat]? with
  | some v => { rdata := v, rvalid := true }
  | none => { rdata := Config.unspecifiedRegData ridx, rvalid := false }

/-- The write port: applied at the end of the cycle, only with widx < NUM_REGS. -/
def writePort (x : RegFile) (we : Bool) (widx : Byte) (wdata : Word) : RegFile :=
  if we = true ∧ widx.toNat < x.length then x.set widx.toNat wdata else x

/-! memory_array (R42): a data port and a read-only fetch port. -/

/-- The data port's outputs. -/
structure DataPort where
  minRange : Bool
  mrdata : Word
  deriving DecidableEq, Repr

/-- The read side of the data port. -/
def dataPort (m : Memory) (maddr : Word) : DataPort :=
  if 0 ≤ s32 maddr ∧ s32 maddr < m.size then { minRange := true, mrdata := m.read (s32 maddr).toNat }
  else { minRange := false, mrdata := Config.unspecifiedMemData maddr }

/-- The write side of the data port: only with min_range. -/
def dataWrite (m : Memory) (maddr : Word) (mwe : Bool) (mwdata : Word) : Memory :=
  if mwe = true ∧ (dataPort m maddr).minRange = true then m.write (s32 maddr).toNat mwdata else m

/-- The fetch port's outputs. -/
structure FetchPort where
  fvalid : Bool
  fword : InstrWord
  deriving DecidableEq, Repr

/-- The fetch port on the program store. -/
def fetchPort (p : ProgramStore) (faddr : Word) : FetchPort :=
  if u32 faddr < p.length then { fvalid := true, fword := p.cells.read (u32 faddr) }
  else { fvalid := false, fword := Config.unspecifiedFetchWord faddr }

/-! program_counter (R43). -/

/-- A command per cycle phase. -/
inductive PcCommand where
  | hold
  | increment
  | load (target : Word)
  deriving DecidableEq, Repr

/-- The counter after a command. -/
def PcCommand.apply : PcCommand → Word → Word
  | .hold, pc => pc
  | .increment, pc => nextIndex pc
  | .load target, _ => target

/-! execution_engine (R44): no state. -/

/-- The engine's inputs; `r1`, `r2`, `r3` are the read ports of fields A, B, C (log 18). -/
structure EngineIn where
  dec : DecoderOut
  r1 : ReadPort
  r2 : ReadPort
  r3 : ReadPort
  data : DataPort
  pcInc : Word
  deriving DecidableEq, Repr

/-- The engine's outputs. -/
structure EngineOut where
  we : Bool
  widx : Byte
  wdata : Word
  mwe : Bool
  mwdata : Word
  pcLoad : Bool
  pcTarget : Word
  haltReq : Bool
  faultReq : Bool
  faultCause : BitVec 8
  faultInfo : Word
  deriving DecidableEq, Repr

/-- The engine's address output `maddr`: for lw and sw the register of field B, the only addressing mode (R27). For any
other op the spec does not say what it carries: a free value (DESIGN CHOICE, log 18). -/
def engineAddr (dec : DecoderOut) (r2 : ReadPort) : Word :=
  match dec.op with
  | .lw => r2.rdata
  | .sw => r2.rdata
  | .halt | .nop | .li | .add | .sub | .mult | .div | .j | .jr | .beq | .bne | .inc | .dec | .unknown =>
    Config.undriven .maddr dec.opcode

/-- Outputs that ask for nothing. What a data output carries while its enable or request is 0 the spec does not say: a
free value for each output and opcode (DESIGN CHOICE, log 18). -/
def EngineOut.idle (opcode : Byte) : EngineOut :=
  { we := false
    widx := (Config.undriven .widx opcode).setWidth 8
    wdata := Config.undriven .wdata opcode
    mwe := false
    mwdata := Config.undriven .mwdata opcode
    pcLoad := false
    pcTarget := Config.undriven .pcTarget opcode
    haltReq := false
    faultReq := false
    faultCause := (Config.undriven .faultCause opcode).setWidth 8
    faultInfo := Config.undriven .faultInfo opcode }

/-- Outputs that write a register. -/
def EngineOut.write (o : EngineOut) (widx : Byte) (wdata : Word) : EngineOut :=
  { o with we := true, widx := widx, wdata := wdata }

/-- Outputs that write the data word at `maddr`. -/
def EngineOut.store (o : EngineOut) (mwdata : Word) : EngineOut := { o with mwe := true, mwdata := mwdata }

/-- Outputs that load the pc. -/
def EngineOut.load (o : EngineOut) (target : Word) : EngineOut := { o with pcLoad := true, pcTarget := target }

/-- Outputs that clear RUN. -/
def EngineOut.halt (o : EngineOut) : EngineOut := { o with haltReq := true }

/-- Outputs that raise a fault. -/
def EngineOut.raise (o : EngineOut) (e : FaultEvent) : EngineOut :=
  { o with faultReq := true, faultCause := e.code, faultInfo := e.info }

/-- The register fields each op uses, in order (spec/30_encoding.md R75). -/
def usedFields : Op → List RegField
  | .halt => []
  | .nop => []
  | .li => [.a]
  | .lw => [.a, .b]
  | .sw => [.a, .b]
  | .add => [.a, .b, .c]
  | .sub => [.a, .b, .c]
  | .mult => [.a, .b, .c]
  | .div => [.a, .b, .c]
  | .j => []
  | .jr => [.a]
  | .beq => [.a, .b, .c]
  | .bne => [.a, .b, .c]
  | .inc => [.a]
  | .dec => [.a]
  | .unknown => []

/-- A field's value in the decoder's outputs. -/
def DecoderOut.field (d : DecoderOut) : RegField → Byte
  | .a => d.fa
  | .b => d.fb
  | .c => d.fc

/-- A field's read port among the engine's inputs. -/
def EngineIn.port (i : EngineIn) : RegField → ReadPort
  | .a => i.r1
  | .b => i.r2
  | .c => i.r3

/-- The first used field whose read port is not valid (spec/40_execution_cycle.md R96). -/
def badField (i : EngineIn) : Option RegField := (usedFields i.dec.op).find? (fun f => !(i.port f).rvalid)

/-- The engine's arm for each op, once its register fields are valid (R96). -/
def engineArm (i : EngineIn) : EngineOut :=
  let idle := EngineOut.idle i.dec.opcode
  match i.dec.op with
  | .halt => idle.halt
  | .nop => idle
  | .li => idle.write i.dec.fa i.dec.imm
  | .lw =>
    if i.data.minRange then idle.write i.dec.fa i.data.mrdata
    else idle.raise (.memAddrOutOfRange (engineAddr i.dec i.r2))
  | .sw =>
    if i.data.minRange then idle.store i.r1.rdata
    else idle.raise (.memAddrOutOfRange (engineAddr i.dec i.r2))
  | .add => idle.write i.dec.fa (i.r2.rdata + i.r3.rdata)
  | .sub => idle.write i.dec.fa (i.r2.rdata - i.r3.rdata)
  | .mult => idle.write i.dec.fa (i.r2.rdata * i.r3.rdata)
  | .div =>
    if i.r3.rdata = 0 then idle.raise (.divByZero i.r2.rdata)
    else if i.r2.rdata = 0x80000000 ∧ i.r3.rdata = 0xFFFFFFFF then idle.raise (.divOverflow i.r2.rdata)
    else idle.write i.dec.fa (BitVec.sdiv i.r2.rdata i.r3.rdata)
  | .j => idle.load i.dec.imm
  | .jr => idle.load i.r1.rdata
  | .beq => if i.r1.rdata = i.r2.rdata then idle.load i.r3.rdata else idle
  | .bne => if i.r1.rdata = i.r2.rdata then idle else idle.load i.r3.rdata
  | .inc => idle.write i.dec.fa (i.r1.rdata + 1)
  | .dec => idle.write i.dec.fa (i.r1.rdata - 1)
  | .unknown => idle

/-- The engine: register faults first, then the arm (R44, R96). With a fault it asks for no write; that the control
suppresses them is R44's. -/
def engine (i : EngineIn) : EngineOut :=
  match badField i with
  | some f => (EngineOut.idle i.dec.opcode).raise (.regIndexOutOfRange f (i.dec.field f))
  | none => engineArm i

/-! fetch_decode_execute_control (R45). -/

/-- The commit of a cycle that fetched `word`: with fault_req every write is suppressed and FR is written (R44, R186);
otherwise the engine's writes are applied together and the trace record is strobed (R97, R101). -/
def commit (s : State) (word : InstrWord) (maddr : Word) (out : EngineOut) : State :=
  let pcInc := PcCommand.increment.apply s.pc
  if out.faultReq then
    { s with
      pc := pcInc
      fr := { cause := out.faultCause, pc := s.pc, wordValid := true, word := word, info := out.faultInfo }
      fetched := none }
  else
    let x := writePort s.x out.we out.widx out.wdata
    let pc := (if out.pcLoad then PcCommand.load out.pcTarget else PcCommand.hold).apply pcInc
    { s with
      x := x
      pc := pc
      mem := dataWrite s.mem maddr out.mwe out.mwdata
      run := s.run && !out.haltReq
      fetched := none
      trace := s.trace ++ [{ pcFetch := s.pc, pcPost := pcInc, pcNext := pc, word := word, regs := x }] }

/-- One cycle of the composed blocks, in RUNNING (R45). Read ports 1, 2, 3 take fields A, B, C, whatever the op: which
port takes which field R41 leaves open (DESIGN CHOICE, log 18). -/
def blockCycle (s : State) : State :=
  let f := fetchPort s.prog s.pc
  if f.fvalid then
    let d := decoder f.fword
    let r1 := readPort s.x d.fa
    let r2 := readPort s.x d.fb
    let r3 := readPort s.x d.fc
    let maddr := engineAddr d r2
    commit s f.fword maddr
      (engine { dec := d, r1 := r1, r2 := r2, r3 := r3, data := dataPort s.mem maddr, pcInc := nextIndex s.pc })
  else
    { s with
      fr := { cause := 1, pc := s.pc, wordValid := false, word := 0, info := s.pc }
      fetched := none }

end Sys2Proof.Machine.Blocks
end

