-- ==== Sys2Proof/Safety.lean ====
section
/-! DEFINITION. The terms claims are stated in: what a state leaves unchanged, the invariant of states between cycles,
and runs that stay safe. -/

namespace Sys2Proof.Machine

/-! Frames. -/

/-- Every register reads as before. -/
def SameRegs (s t : State) : Prop := ∀ i : Nat, t.x[i]? = s.x[i]?

/-- Every register but one reads as before. -/
def SameRegsBut (r : Nat) (s t : State) : Prop := ∀ i : Nat, i ≠ r → t.x[i]? = s.x[i]?

/-- Every word of data memory reads as before. -/
def SameMem (s t : State) : Prop := ∀ a : Nat, t.mem.read a = s.mem.read a

/-- Every word of data memory but one reads as before. -/
def SameMemBut (a : Nat) (s t : State) : Prop := ∀ b : Nat, b ≠ a → t.mem.read b = s.mem.read b

/-- The parameters, the program store, and the model's own fields. -/
def SameRest (s t : State) : Prop :=
  t.params = s.params ∧ t.prog = s.prog ∧ t.fetched = s.fetched ∧ t.trace = s.trace

/-- RUN and the fault record. -/
def SameStatus (s t : State) : Prop := t.run = s.run ∧ t.fr = s.fr

/-- Only one register may differ. -/
def OnlyReg (r : Nat) (s t : State) : Prop :=
  SameRegsBut r s t ∧ t.pc = s.pc ∧ SameMem s t ∧ SameStatus s t ∧ SameRest s t

/-- Only one word of data memory may differ. -/
def OnlyMemWord (a : Nat) (s t : State) : Prop :=
  SameRegs s t ∧ t.pc = s.pc ∧ SameMemBut a s t ∧ SameStatus s t ∧ SameRest s t

/-- Only the pc may differ. -/
def OnlyPc (s t : State) : Prop := SameRegs s t ∧ SameMem s t ∧ SameStatus s t ∧ SameRest s t

/-- Only the fault record may differ: a fault is precise (spec/60_exceptions.md R186). -/
def OnlyFr (s t : State) : Prop :=
  SameRegs s t ∧ t.pc = s.pc ∧ SameMem s t ∧ t.run = s.run ∧ SameRest s t

/-- Only RUN may differ. -/
def OnlyRun (s t : State) : Prop :=
  SameRegs s t ∧ t.pc = s.pc ∧ SameMem s t ∧ t.fr = s.fr ∧ SameRest s t

/-! What rules say of an instruction. -/

/-- Every word of an opcode decodes to this, whatever its unused fields hold (spec/30_encoding.md R76). -/
def DecodesAs (opcode : Byte) (f : InstrWord → Instr) : Prop := ∀ w : InstrWord, fieldOpcode w = opcode → decode w = f w

/-- A fault of this code and detail was taken, precisely: FR has them, with the index and the word of the cycle, and
nothing else changed (spec/60_exceptions.md R180, R186). -/
def Faults (code : BitVec 8) (info : Word) (s t : State) : Prop :=
  t.fr.cause = code ∧ t.fr.info = info ∧
    (∀ f, s.fetched = some f → t.fr.pc = f.pc ∧ t.fr.wordValid = true ∧ t.fr.word = f.word) ∧ OnlyFr s t

/-- RegIndexOutOfRange for the first used field that names no register (R180, R182). -/
def RegFaults (i : Instr) : Prop :=
  ∀ (s : State) (f : RegField) (k : Byte), firstBadReg s.numRegs i = some (f, k) →
    ∃ t, exec i s = .next t ∧ Faults 2 (BitVec.ofNat 32 (f.id * 256 + k.toNat)) s t

/-- A valid data address of this core (spec/10_state.md R27). -/
abbrev State.ValidAddr (s : State) (v : Word) : Prop := 0 ≤ s32 v ∧ s32 v < s.memWords

/-- The fault an instruction is due in a state, by the priority of R188, steps 2 to 4. -/
def dueFault (i : Instr) (s : State) : Option FaultEvent :=
  match firstBadReg s.numRegs i with
  | some (f, k) => some (.regIndexOutOfRange f k)
  | none =>
    match i with
    | .lw _ b => addrFault s (s.reg? b)
    | .sw _ b => addrFault s (s.reg? b)
    | .div _ b c => divFault (s.reg? b) (s.reg? c)
    | .halt => none
    | .nop => none
    | .li _ _ => none
    | .add _ _ _ => none
    | .sub _ _ _ => none
    | .mult _ _ _ => none
    | .j _ => none
    | .jr _ => none
    | .beq _ _ _ => none
    | .bne _ _ _ => none
    | .inc _ => none
    | .dec _ => none
    | .unrecognized _ => none
where
  /-- MemAddrOutOfRange on an address (R183). -/
  addrFault (s : State) : Option Word → Option FaultEvent
    | some v => if s.ValidAddr v then none else some (.memAddrOutOfRange v)
    | none => none
  /-- DivByZero or DivOverflow on a dividend and a divisor (R184, R185). -/
  divFault : Option Word → Option Word → Option FaultEvent
    | some n, some d =>
      if d = 0 then some (.divByZero n)
      else if n = 0x80000000 ∧ d = 0xFFFFFFFF then some (.divOverflow n)
      else none
    | _, _ => none

/-! The assembler's words (spec/30_encoding.md R85, R86). -/

/-- A register number the assembler accepts: one that names a register, and that the 8-bit field holds. -/
abbrev RegOperand (numRegs n : Nat) : Prop := n < numRegs ∧ n < 256

/-- A row of R86 as a number, by the layout of R70. -/
def asmWord (opcode a b c : Nat) (imm : Word) : InstrWord :=
  BitVec.ofNat 64 (opcode * 2 ^ 56 + a * 2 ^ 48 + b * 2 ^ 40 + c * 2 ^ 32 + imm.toNat)

/-! The invariant. -/

/-- A fault record that fits R180: no fault and every field 0, or a code of 1 to 5 with word_valid as the code says,
and no word where none was fetched. -/
def FaultRecord.wf (f : FaultRecord) : Prop :=
  f = FaultRecord.none ∨
    (f.cause = 1 ∧ f.wordValid = false ∧ f.word = 0 ∧ f.info = f.pc) ∨
    (2 ≤ f.cause.toNat ∧ f.cause.toNat ≤ 5 ∧ f.wordValid = true)

/-- What holds of every state between cycles: the memories keep their form (log 3), the control state is one of the
three of R30, the fault record fits R180, and nothing is in flight (R35). -/
structure Inv (s : State) : Prop where
  memWf : Memory.wf s.mem
  progWf : s.prog.wf
  controlLegal : s.control ≠ .impossible
  frWf : s.fr.wf
  idle : s.fetched = none

/-! Runs. -/

/-- A run of so many steps that never enters FAULTED. -/
def SafeRun : Nat → State → Prop
  | 0, s => s.control ≠ .faulted
  | k + 1, s => s.control ≠ .faulted ∧ ∀ t, step s = .next t → SafeRun k t

/-- `k` cycles from `s` to `t`, each of which completes (R95). -/
def Completes : Nat → State → State → Prop
  | 0, s, t => t = s
  | k + 1, s, t => ∃ u, step s = .next u ∧ u.fr.cause = 0 ∧ Completes k u t

end Sys2Proof.Machine
end

