-- ==== Sys2Proof/Certificates/Slice0/Obligations.lean ====
section
/-! DEFINITION. The statements about the model, from the numbered rules of spec/. Each is for the provers; none is
proved here. -/

open Sys2Proof Sys2Proof.Machine

/-! Encoding (spec/30_encoding.md). -/

/-- R70: the fields of a word, by the layout written as a number. -/
def Obligations.FieldsOfWordByLayout : Prop :=
  ∀ (opcode a b c : Byte) (imm : Word),
    fieldsOf (BitVec.ofNat 64
      (opcode.toNat * 2 ^ 56 + a.toNat * 2 ^ 48 + b.toNat * 2 ^ 40 + c.toNat * 2 ^ 32 + imm.toNat)) =
        { opcode := opcode, a := a, b := b, c := c, imm := imm } ∧
      Fields.word { opcode := opcode, a := a, b := b, c := c, imm := imm } =
        BitVec.ofNat 64
          (opcode.toNat * 2 ^ 56 + a.toNat * 2 ^ 48 + b.toNat * 2 ^ 40 + c.toNat * 2 ^ 32 + imm.toNat)

/-- Decode and encode agree on every well-formed instruction, with every operand at every value. -/
def Obligations.DecodeOfEncode : Prop := ∀ i : Instr, i.wf = true → decode (encode i) = i

/-- R77: encoding what a word decodes to keeps the bits its opcode uses and clears the others, and decodes the same. -/
def Obligations.EncodeOfDecodeIsCanonical : Prop :=
  ∀ w : InstrWord,
    encode (decode w) = w &&& usedBits (decodeOp (fieldOpcode w)) ∧ decode (encode (decode w)) = decode w

/-- R76: two words that agree on the bits their opcode uses are one instruction, with one meaning. -/
def Obligations.UnusedFieldsAreIgnored : Prop :=
  ∀ w v : InstrWord,
    w &&& usedBits (decodeOp (fieldOpcode w)) = v &&& usedBits (decodeOp (fieldOpcode w)) →
      decode w = decode v ∧ ∀ s : State, exec (decode w) s = exec (decode v) s

/-- R80: the opcode map. -/
def Obligations.OpcodeMapOfDecoder : Prop :=
  decodeOp 0x00 = .halt ∧ decodeOp 0x01 = .nop ∧ decodeOp 0x02 = .li ∧ decodeOp 0x03 = .lw ∧
    decodeOp 0x04 = .sw ∧ decodeOp 0x05 = .add ∧ decodeOp 0x06 = .sub ∧ decodeOp 0x07 = .mult ∧
    decodeOp 0x08 = .div ∧ decodeOp 0x09 = .j ∧ decodeOp 0x0A = .jr ∧ decodeOp 0x0B = .beq ∧
    decodeOp 0x0C = .bne ∧ decodeOp 0x0D = .inc ∧ decodeOp 0x0E = .dec ∧
    ∀ opcode : Byte, 0x0F ≤ opcode.toNat → decodeOp opcode = .unknown

/-- R81: every word decodes to a well-formed instruction, and to the unrecognized one exactly from opcode 0x0F on. -/
def Obligations.EveryWordDecodes : Prop :=
  ∀ w : InstrWord,
    (decode w).wf = true ∧ (0x0F ≤ (fieldOpcode w).toNat ↔ decode w = .unrecognized (fieldOpcode w))

/-- Words written out in spec/95_test_vectors.md decode to the instructions they stand for. -/
def Obligations.WordsOfTheSpecDecode : Prop :=
  decode 0x00FFFFFF12345678 = .halt ∧ decode 0x0100000000000000 = .nop ∧
    decode 0x02030000FFFFFFF9 = .li 3 0xFFFFFFF9 ∧ decode 0x0302010000000000 = .lw 2 1 ∧
    decode 0x0400030000000000 = .sw 0 3 ∧ decode 0x0502000100000000 = .add 2 0 1 ∧
    decode 0x0800020300000000 = .div 0 2 3 ∧ decode 0x090000000000000B = .j 11 ∧
    decode 0x0A00000000000000 = .jr 0 ∧ decode 0x0C00020300000000 = .bne 0 2 3 ∧
    decode 0x0D01000000000000 = .inc 1 ∧ decode 0x123456789ABCDEF0 = .unrecognized 0x12

/-! The cycle (spec/40_execution_cycle.md). -/

/-- R98: a step in RUNNING fetches at the pc, increments it, executes what the word decodes to, and emits the trace
record if the cycle completes; with no word there it takes FetchOutOfRange. `fetched` holds R98's `p` and `w` while
the cycle runs and is none after it (log 5). -/
def Obligations.StepRunsDecodedInstruction : Prop :=
  ∀ s : State, s.control = .running →
    (s.prog.length ≤ u32 s.pc →
      step s = .next { s with
        fr := { cause := 1, pc := s.pc, wordValid := false, word := 0, info := s.pc }
        fetched := none }) ∧
    ∀ w i, s.prog.fetch (u32 s.pc) = some w → decode w = i →
      ∃ t, exec i { s with pc := s.pc + 1, fetched := some { pc := s.pc, word := w } } = .next t ∧
        step s = .next (if t.fr.cause = 0 then
          { t with
            fetched := none
            trace := t.trace ++
              [{ pcFetch := s.pc, pcPost := s.pc + 1, pcNext := t.pc, word := w, regs := t.x }] }
        else { t with fetched := none })

/-- HALTED and FAULTED have no step (R91), which the model answers with the stops noStepHalted and noStepFaulted: that
there is a named stop, and its name, are the model's choice (log 6). Only RUNNING has a next state. -/
def Obligations.NoStepOutsideRunning : Prop :=
  ∀ s : State,
    (s.control = .halted → step s = .fault .noStepHalted) ∧
      (s.control = .faulted → step s = .fault .noStepFaulted) ∧
      ∀ t, step s = .next t → s.control = .running

/-- R81, R171: in RUNNING every program store, pc and word gives a next state: no refusal, no stop. -/
def Obligations.RunningAlwaysSteps : Prop := ∀ s : State, s.control = .running → ∃ t, step s = .next t

/-- R93: a completed cycle whose word is no control transfer leaves the pc at the fetch address plus one, mod 2^32. -/
def Obligations.PcAdvancesByOne : Prop :=
  ∀ (s t : State) (w : InstrWord), s.prog.fetch (u32 s.pc) = some w → step s = .next t →
    (fieldOpcode w).toNat ∉ [0x09, 0x0A, 0x0B, 0x0C] → t.pc = bits32 (u32 s.pc + 1)

/-- R101: a completed cycle emits one trace record, of these five values; a faulting one emits none. The model holds
the records emitted in `trace` (log 8). -/
def Obligations.CompletedCycleEmitsTraceRecord : Prop :=
  ∀ s t : State, step s = .next t →
    (t.fr.cause = 0 →
      ∃ w, s.prog.fetch (u32 s.pc) = some w ∧
        t.trace = s.trace ++
          [{ pcFetch := s.pc, pcPost := s.pc + 1, pcNext := t.pc, word := w, regs := t.x }]) ∧
      (t.fr.cause ≠ 0 → t.trace = s.trace)

/-- R102: what the trace holds changes neither the step nor any other part of the state. -/
def Obligations.TraceIsOutputOnly : Prop :=
  ∀ (s t : State) (l : List TraceRecord), step s = .next t →
    ∃ r, t.trace = s.trace ++ r ∧ step { s with trace := l } = .next { t with trace := l ++ r }

/-- R97, R56: a step that fetched a word writes at most one register, the one field A names, or at most one data word,
the one sw addresses, and never both. -/
def Obligations.AtMostOneWritePerCycle : Prop :=
  ∀ (s t : State) (w : InstrWord), s.prog.fetch (u32 s.pc) = some w → step s = .next t →
    (SameRegsBut (fieldA w).toNat s t ∧ SameMem s t) ∨
      (SameRegs s t ∧ fieldOpcode w = 0x04 ∧
        ∃ v, s.reg? (fieldB w) = some v ∧ s.ValidAddr v ∧ SameMemBut (s32 v).toNat s t)

/-- R95: a cycle that completes counts as one dispatch, a faulting one as none; a run that reaches `halt` after k
completed cycles performs exactly k dispatches, and then RUN = 0. -/
def Obligations.HaltedRunCountsDispatches : Prop :=
  (∀ s t : State, step s = .next t → t.dispatches = s.dispatches + if t.fr.cause = 0 then 1 else 0) ∧
    ∀ (fuel : Nat) (s t : State), runToEnd fuel s = some t → t.control = .halted →
      ∃ k, Completes k s t ∧ t.dispatches = s.dispatches + k ∧ t.run = false

/-- R100: a run that ended has ended: more fuel gives the same final state, which has no step. -/
def Obligations.EndedRunIsFinal : Prop :=
  ∀ (k m : Nat) (s t : State), runToEnd k s = some t →
    runToEnd (k + m) s = some t ∧ ∀ u, step t ≠ .next u

/-! halt, nop and the unrecognized opcodes. -/

/-- R110: halt clears RUN and nothing else; its cycle completes, with the pc past it, and leaves HALTED, which has no
step. Any word of opcode 0x00 is halt. That the missing step is the stop noStepHalted is the model's choice (log 6). -/
def Obligations.HaltStopsTheCore : Prop :=
  DecodesAs 0x00 (fun _ => .halt) ∧
    (∀ s : State, ∃ t, exec .halt s = .next t ∧ t.run = false ∧ OnlyRun s t) ∧
    ∀ (s : State) (w : InstrWord), s.control = .running → s.prog.fetch (u32 s.pc) = some w → fieldOpcode w = 0x00 →
      ∃ t, step s = .next t ∧ t.control = .halted ∧ t.pc = s.pc + 1 ∧ t.dispatches = s.dispatches + 1 ∧
        SameRegs s t ∧ SameMem s t ∧ step t = .fault .noStepHalted

/-- R111: nop changes nothing; its cycle changes the pc only, wrapping, and emits a trace record. -/
def Obligations.NopChangesNothing : Prop :=
  DecodesAs 0x01 (fun _ => .nop) ∧
    (∀ s : State, exec .nop s = .next s) ∧
    ∀ (s : State) (w : InstrWord), s.control = .running → s.prog.fetch (u32 s.pc) = some w → fieldOpcode w = 0x01 →
      ∃ t, step s = .next t ∧ t.pc = s.pc + 1 ∧ t.dispatches = s.dispatches + 1 ∧ SameRegs s t ∧ SameMem s t ∧
        SameStatus s t

/-- R170, R79: an unrecognized opcode changes nothing and never faults; its cycle changes the pc only and emits a trace
record. -/
def Obligations.UnrecognizedOpcodesChangeNothing : Prop :=
  (∀ w : InstrWord, 0x0F ≤ (fieldOpcode w).toNat → decode w = .unrecognized (fieldOpcode w)) ∧
    (∀ (opcode : Byte) (s : State), exec (.unrecognized opcode) s = .next s) ∧
    ∀ (s : State) (w : InstrWord), s.control = .running → s.prog.fetch (u32 s.pc) = some w →
      0x0F ≤ (fieldOpcode w).toNat →
        ∃ t, step s = .next t ∧ t.pc = s.pc + 1 ∧ t.dispatches = s.dispatches + 1 ∧ SameRegs s t ∧ SameMem s t ∧
          SameStatus s t

/-! li, lw and sw (spec/42_li_lw_sw.md). -/

/-- R120: `x[A] <- imm`, the pattern unchanged, or RegIndexOutOfRange. -/
def Obligations.LiLoadsTheImmediate : Prop :=
  DecodesAs 0x02 (fun w => .li (fieldA w) (fieldImm w)) ∧
    ∀ (a : Byte) (imm : Word), RegFaults (.li a imm) ∧
      ∀ s : State, a.toNat < s.numRegs →
        ∃ t, exec (.li a imm) s = .next t ∧ t.reg? a = some imm ∧ OnlyReg a.toNat s t

/-- R121: `x[A] <- MemRead(s32(x[B]), 1)`, the address read before the register is written; or its faults, in order. -/
def Obligations.LwLoadsTheWord : Prop :=
  DecodesAs 0x03 (fun w => .lw (fieldA w) (fieldB w)) ∧
    ∀ a b : Byte, RegFaults (.lw a b) ∧
      ∀ (s : State) (v : Word), a.toNat < s.numRegs → s.reg? b = some v →
        (s.ValidAddr v →
          ∃ t, exec (.lw a b) s = .next t ∧ t.reg? a = some (s.mem.read (s32 v).toNat) ∧ OnlyReg a.toNat s t) ∧
        (¬ s.ValidAddr v → ∃ t, exec (.lw a b) s = .next t ∧ Faults 3 v s t)

/-- R122: `MemWrite(s32(x[B]), 1, x[A])`, every other word and every register unchanged; or its faults, in order. -/
def Obligations.SwStoresTheWord : Prop :=
  DecodesAs 0x04 (fun w => .sw (fieldA w) (fieldB w)) ∧
    ∀ a b : Byte, RegFaults (.sw a b) ∧
      ∀ (s : State) (u v : Word), s.reg? a = some u → s.reg? b = some v →
        (s.ValidAddr v →
          ∃ t, exec (.sw a b) s = .next t ∧ t.mem.read (s32 v).toNat = u ∧ OnlyMemWord (s32 v).toNat s t) ∧
        (¬ s.ValidAddr v → ∃ t, exec (.sw a b) s = .next t ∧ Faults 3 v s t)

/-- R60: a load reads the last store to its index, and any other index as before the store. -/
def Obligations.LoadReadsTheLastStore : Prop :=
  ∀ (a b c d : Byte) (s t : State) (u v z : Word), s.reg? a = some u → s.reg? b = some v → s.reg? d = some z →
    c.toNat < s.numRegs → s.ValidAddr v → s.ValidAddr z → exec (.sw a b) s = .next t →
      ∃ r, exec (.lw c d) t = .next r ∧
        r.reg? c = some (if z = v then u else s.mem.read (s32 z).toNat)

/-! add, sub, mult and div (spec/43_arithmetic.md). -/

/-- R130: `x[A] <- bits32(s32(x[B]) + s32(x[C]))`, read before written, or RegIndexOutOfRange. -/
def Obligations.AddWrapsTheSum : Prop :=
  DecodesAs 0x05 (fun w => .add (fieldA w) (fieldB w) (fieldC w)) ∧
    ∀ a b c : Byte, RegFaults (.add a b c) ∧
      ∀ (s : State) (n m : Word), a.toNat < s.numRegs → s.reg? b = some n → s.reg? c = some m →
        ∃ t, exec (.add a b c) s = .next t ∧ t.reg? a = some (BitVec.ofInt 32 (n.toInt + m.toInt)) ∧ OnlyReg a.toNat s t

/-- R131: `x[A] <- bits32(s32(x[B]) - s32(x[C]))`, or RegIndexOutOfRange. -/
def Obligations.SubWrapsTheDifference : Prop :=
  DecodesAs 0x06 (fun w => .sub (fieldA w) (fieldB w) (fieldC w)) ∧
    ∀ a b c : Byte, RegFaults (.sub a b c) ∧
      ∀ (s : State) (n m : Word), a.toNat < s.numRegs → s.reg? b = some n → s.reg? c = some m →
        ∃ t, exec (.sub a b c) s = .next t ∧ t.reg? a = some (BitVec.ofInt 32 (n.toInt - m.toInt)) ∧ OnlyReg a.toNat s t

/-- R132: `x[A] <-` the low 32 bits of the exact product, or RegIndexOutOfRange. -/
def Obligations.MultKeepsTheLowHalf : Prop :=
  DecodesAs 0x07 (fun w => .mult (fieldA w) (fieldB w) (fieldC w)) ∧
    ∀ a b c : Byte, RegFaults (.mult a b c) ∧
      ∀ (s : State) (n m : Word), a.toNat < s.numRegs → s.reg? b = some n → s.reg? c = some m →
        ∃ t, exec (.mult a b c) s = .next t ∧ t.reg? a = some (BitVec.ofInt 32 (n.toInt * m.toInt)) ∧ OnlyReg a.toNat s t

/-- R133: `x[A] <-` the quotient rounded toward zero; DivByZero, then DivOverflow, on the dividend; or
RegIndexOutOfRange first. The rounding and DivOverflow are the spec's own choice (D8 and D9, "from general knowledge,
not in source"; log 14). -/
def Obligations.DivRoundsTowardZero : Prop :=
  DecodesAs 0x08 (fun w => .div (fieldA w) (fieldB w) (fieldC w)) ∧
    ∀ a b c : Byte, RegFaults (.div a b c) ∧
      ∀ (s : State) (n d : Word), a.toNat < s.numRegs → s.reg? b = some n → s.reg? c = some d →
        (d = 0 → ∃ t, exec (.div a b c) s = .next t ∧ Faults 4 n s t) ∧
        (n = 0x80000000 ∧ d = 0xFFFFFFFF → ∃ t, exec (.div a b c) s = .next t ∧ Faults 5 n s t) ∧
        (d ≠ 0 → ¬ (n = 0x80000000 ∧ d = 0xFFFFFFFF) →
          ∃ t, exec (.div a b c) s = .next t ∧
            t.reg? a = some (BitVec.ofInt 32 (Int.tdiv n.toInt d.toInt)) ∧ OnlyReg a.toNat s t)

/-- R134: the quotient at each sign combination, exactly, by floor division of magnitudes (the spec's choice D8;
log 14). -/
def Obligations.DivQuotientBySigns : Prop :=
  ∀ (a b c : Byte) (s : State) (n d : Word), a.toNat < s.numRegs → s.reg? b = some n → s.reg? c = some d →
    d ≠ 0 → ¬ (n = 0x80000000 ∧ d = 0xFFFFFFFF) →
      ∃ t q, exec (.div a b c) s = .next t ∧ t.reg? a = some q ∧
        (0 ≤ n.toInt → 0 < d.toInt → q.toInt = n.toInt / d.toInt) ∧
        (n.toInt < 0 → 0 < d.toInt → q.toInt = -(-n.toInt / d.toInt)) ∧
        (0 ≤ n.toInt → d.toInt < 0 → q.toInt = -(n.toInt / -d.toInt)) ∧
        (n.toInt < 0 → d.toInt < 0 → q.toInt = -n.toInt / -d.toInt)

/-- R134: add, sub and mult give the same pattern whether the operands are read signed or unsigned. -/
def Obligations.AddSubMultIgnoreSignedness : Prop :=
  ∀ (a b c : Byte) (s : State) (n m : Word), a.toNat < s.numRegs → s.reg? b = some n → s.reg? c = some m →
    (∃ t, exec (.add a b c) s = .next t ∧ t.reg? a = some (BitVec.ofInt 32 ((n.toNat : Int) + m.toNat))) ∧
    (∃ t, exec (.sub a b c) s = .next t ∧ t.reg? a = some (BitVec.ofInt 32 ((n.toNat : Int) - m.toNat))) ∧
    (∃ t, exec (.mult a b c) s = .next t ∧ t.reg? a = some (BitVec.ofInt 32 ((n.toNat : Int) * m.toNat)))

/-! j, jr, beq and bne (spec/44_control_transfer.md). -/

/-- R150: `pc <- imm`, with no check in this cycle; an index that is no word of the program faults at the next fetch. -/
def Obligations.JLoadsThePc : Prop :=
  DecodesAs 0x09 (fun w => .j (fieldImm w)) ∧
    (∀ (imm : Word) (s : State), ∃ t, exec (.j imm) s = .next t ∧ t.pc = imm ∧ OnlyPc s t) ∧
    ∀ (s : State) (w : InstrWord), s.control = .running → s.prog.fetch (u32 s.pc) = some w → fieldOpcode w = 0x09 →
      s.prog.length ≤ u32 (fieldImm w) →
        ∃ t r, step s = .next t ∧ t.pc = fieldImm w ∧ t.fr = s.fr ∧ step t = .next r ∧ r.pc = fieldImm w ∧
          r.fr = { cause := 1, pc := fieldImm w, wordValid := false, word := 0, info := fieldImm w }

/-- R151: `pc <- x[A]`, the pattern unchanged, or RegIndexOutOfRange. -/
def Obligations.JrLoadsThePcFromARegister : Prop :=
  DecodesAs 0x0A (fun w => .jr (fieldA w)) ∧
    ∀ a : Byte, RegFaults (.jr a) ∧
      ∀ (s : State) (v : Word), s.reg? a = some v → ∃ t, exec (.jr a) s = .next t ∧ t.pc = v ∧ OnlyPc s t

/-- R152: the pc is loaded from x[C] exactly when x[A] = x[B]; A, B, C are checked either way. -/
def Obligations.BeqBranchesWhenEqual : Prop :=
  DecodesAs 0x0B (fun w => .beq (fieldA w) (fieldB w) (fieldC w)) ∧
    ∀ a b c : Byte, RegFaults (.beq a b c) ∧
      ∀ (s : State) (u v z : Word), s.reg? a = some u → s.reg? b = some v → s.reg? c = some z →
        ∃ t, exec (.beq a b c) s = .next t ∧ t.pc = (if u = v then z else s.pc) ∧ OnlyPc s t

/-- R153: the pc is loaded from x[C] exactly when x[A] ≠ x[B]; A, B, C are checked either way. -/
def Obligations.BneBranchesWhenDifferent : Prop :=
  DecodesAs 0x0C (fun w => .bne (fieldA w) (fieldB w) (fieldC w)) ∧
    ∀ a b c : Byte, RegFaults (.bne a b c) ∧
      ∀ (s : State) (u v z : Word), s.reg? a = some u → s.reg? b = some v → s.reg? c = some z →
        ∃ t, exec (.bne a b c) s = .next t ∧ t.pc = (if u = v then s.pc else z) ∧ OnlyPc s t

/-! inc and dec (spec/45_inc_dec.md). -/

/-- R160: `x[A] <- x[A] +32 1`, wrapping, or RegIndexOutOfRange. -/
def Obligations.IncAddsOne : Prop :=
  DecodesAs 0x0D (fun w => .inc (fieldA w)) ∧
    ∀ a : Byte, RegFaults (.inc a) ∧
      ∀ (s : State) (v : Word), s.reg? a = some v →
        ∃ t, exec (.inc a) s = .next t ∧ t.reg? a = some (v + 1) ∧ OnlyReg a.toNat s t

/-- R161: `x[A] <- x[A] -32 1`, wrapping, or RegIndexOutOfRange. -/
def Obligations.DecSubtractsOne : Prop :=
  DecodesAs 0x0E (fun w => .dec (fieldA w)) ∧
    ∀ a : Byte, RegFaults (.dec a) ∧
      ∀ (s : State) (v : Word), s.reg? a = some v →
        ∃ t, exec (.dec a) s = .next t ∧ t.reg? a = some (v - 1) ∧ OnlyReg a.toNat s t

/-! Faults (spec/60_exceptions.md). -/

/-- R188: every instruction answers a next state, which took the fault due by priority, precisely, or none. -/
def Obligations.FaultTakenIffDue : Prop :=
  ∀ (i : Instr) (s : State), ∃ t, exec i s = .next t ∧
    (∀ e, dueFault i s = some e → Faults e.code e.info s t) ∧ (dueFault i s = none → t.fr = s.fr)

/-- R181: a cycle that starts with u32(pc) ≥ N takes FetchOutOfRange, with the pc not incremented. -/
def Obligations.FetchOutOfRangeIsTaken : Prop :=
  ∀ s : State, s.control = .running → s.prog.length ≤ u32 s.pc →
    ∃ t, step s = .next t ∧ t.fr = { cause := 1, pc := s.pc, wordValid := false, word := 0, info := s.pc } ∧
      t.pc = s.pc ∧ t.control = .faulted

/-- R186: a cycle that faults writes FR and leaves registers, memory, RUN, program and trace as they were, with the pc
at p for a fetch fault and p + 1 for any other; the core is then FAULTED. -/
def Obligations.FaultsArePrecise : Prop :=
  ∀ s t : State, step s = .next t → t.fr.cause ≠ 0 →
    SameRegs s t ∧ SameMem s t ∧ t.run = true ∧ t.prog = s.prog ∧ t.trace = s.trace ∧ t.control = .faulted ∧
      t.fr.pc = s.pc ∧
      (s.prog.fetch (u32 s.pc) = none →
        t.pc = s.pc ∧ t.fr.cause = 1 ∧ t.fr.wordValid = false ∧ t.fr.word = 0 ∧ t.fr.info = s.pc) ∧
      ∀ w, s.prog.fetch (u32 s.pc) = some w →
        t.pc = s.pc + 1 ∧ t.fr.wordValid = true ∧ t.fr.word = w ∧
          ∃ e, dueFault (decode w) { s with pc := s.pc + 1, fetched := some { pc := s.pc, word := w } } = some e ∧
            t.fr.cause = e.code ∧ t.fr.info = e.info

/-- R28: RUN is 1 after reset, is cleared by halt and by nothing else, and no cycle starts once it is 0. -/
def Obligations.OnlyHaltClearsRun : Prop :=
  (∀ (p : Config.Params) (ws : List InstrWord) (t : State), State.boot p ws = some t → t.run = true) ∧
    (∀ s t : State, step s = .next t →
      (t.run = false ↔ ∃ w, s.prog.fetch (u32 s.pc) = some w ∧ fieldOpcode w = 0x00)) ∧
    ∀ s t : State, s.run = false → step s ≠ .next t

/-! State and memory (spec/10_state.md, spec/20_memory.md). -/

/-- R21: an instruction writes no register that its writing field does not name, and the outcome depends on no register
its fields do not name: with another value in such a register, everything else comes out the same. -/
def Obligations.OnlyNamedRegistersAreUsed : Prop :=
  ∀ (i : Instr) (s t : State), exec i s = .next t →
    (∀ r : Nat, (∀ a, writesReg i = some a → a.toNat ≠ r) → t.x[r]? = s.x[r]?) ∧
      ∀ (k : Nat) (v : Word), k < s.numRegs → (∀ b ∈ readsRegs i, b.toNat ≠ k) →
        ∃ u, exec i (s.setReg k v) = .next u ∧ OnlyReg k t u ∧
          ((∀ a, writesReg i = some a → a.toNat ≠ k) → u.x[k]? = some v)

/-- R25: no step changes the program store, and no instruction reads it: with another one, its outcome is the same. -/
def Obligations.OnlyFetchReachesTheProgramStore : Prop :=
  (∀ s t : State, step s = .next t → t.prog = s.prog) ∧
    ∀ (i : Instr) (s t : State) (p : ProgramStore), exec i s = .next t →
      exec i { s with prog := p } = .next { t with prog := p }

/-- R26: the data memory has the indices 0 to MEM_WORDS-1; only sw writes it; and only lw reads it: with other
contents, any other instruction gives the same registers, pc, RUN and fault record. -/
def Obligations.OnlyLwReadsAndSwWritesMemory : Prop :=
  (∀ (s : State) (a : Nat), (s.observeMem a).isSome ↔ a < s.memWords) ∧
    (∀ s t : State, step s = .next t →
      (∀ w, s.prog.fetch (u32 s.pc) = some w → fieldOpcode w ≠ 0x04) → SameMem s t) ∧
    ∀ (i : Instr) (s t : State) (m : Memory), m.size = s.memWords → (∀ a b, i ≠ .lw a b) → exec i s = .next t →
      ∃ m', exec i { s with mem := m } = .next { t with mem := m' }

/-- R210: reset in any state, with a program of at most 2^32 words, gives every piece of state its reset value, holds
the program, and is RUNNING. -/
def Obligations.ResetGivesEveryResetValue : Prop :=
  ∀ (s : State) (ws : List InstrWord), ws.length ≤ 2 ^ 32 →
    ∃ t, s.resetEvent ws = some t ∧ t.params = s.params ∧ (∀ r, r < s.numRegs → t.x[r]? = some 0) ∧
      (∀ a, a < s.memWords → t.observeMem a = some 0) ∧ t.pc = 0 ∧ t.run = true ∧ t.fr = ⟨0, 0, false, 0, 0⟩ ∧
      t.prog.length = ws.length ∧ (∀ k, t.prog.fetch k = ws[k]?) ∧ t.control = .running

/-- The state after reset with no program (log 2) and the default parameters (R8) is `State.reset`; a boot has the
parameters it is given. -/
def Obligations.ResetStateIsBootOfNothing : Prop :=
  State.boot Config.defaultParams [] = some State.reset ∧ State.reset.numRegs = 4 ∧ State.reset.memWords = 65535 ∧
    ∀ (p : Config.Params) (ws : List InstrWord) (t : State), State.boot p ws = some t → t.params = p

/-- Every boot meets the invariant. -/
def Obligations.BootMeetsInvariant : Prop :=
  Inv State.reset ∧ ∀ (p : Config.Params) (ws : List InstrWord) (t : State), State.boot p ws = some t → Inv t

/-- Every step keeps the invariant: the memories' form, a legal control state (R30), a fault record that fits R180, and
nothing in flight between cycles (R35). -/
def Obligations.StepKeepsInvariant : Prop := ∀ s t : State, Inv s → step s = .next t → Inv t

/-- The model's placement of an opcode-table word (log 2, log 16) is where the next cycle fetches, decodes as that
row, and leaves the core RUNNING; registers, memory, pc and trace stay as they were. -/
def Obligations.PlacedWordIsFetchedNext : Prop :=
  ∀ (s : State) (nbits w : Nat) (i : Instr), decodeTableWord nbits w = some i →
    ∃ t v, t = s.withFetchWord nbits w ∧ t.control = .running ∧ t.prog.fetch (u32 t.pc) = some v ∧ decode v = i ∧
      SameRegs s t ∧ SameMem s t ∧ t.pc = s.pc ∧ t.trace = s.trace

/-! The blocks (spec/10_state.md section 8). -/

/-- R40 to R45: one cycle composed from the six blocks' ports is the step, in every RUNNING state, whatever the
unspecified port data are. -/
def Obligations.BlocksComposeToTheStep : Prop :=
  ∀ s : State, s.control = .running → step s = .next (Blocks.blockCycle s)

/-! Around the core: the assembler, the loader and the trace line. -/

/-- R77, R86: `.word` gives its value as written; any other statement that assembles gives a canonical word of a
recognized opcode whose register fields all name registers. -/
def Obligations.AssembledWordsAreCanonical : Prop :=
  ∀ (n : Nat) (labels : List (List Char × Nat)) (st : Assembler.Stmt),
    (∀ v, st = .word v → Assembler.assembleStmt n labels st = some v) ∧
      ∀ w, (∀ v, st ≠ .word v) → Assembler.assembleStmt n labels st = some w →
        encode (decode w) = w ∧ firstBadReg n (decode w) = none ∧ fieldOpcode w ≤ 0x0E

/-- R85: the assembler refuses a register number of NUM_REGS or more (or one that no 8-bit field holds, log 1) and an
immediate outside −2^31 .. 2^32−1, and encodes the others as N and as bits32. -/
def Obligations.AssemblerOperandRanges : Prop :=
  (∀ numRegs n : Nat, Assembler.asmReg numRegs n = none ↔ numRegs ≤ n ∨ 256 ≤ n) ∧
    (∀ numRegs n : Nat, ∀ k, Assembler.asmReg numRegs n = some k → k.toNat = n) ∧
    ∀ (labels : List (List Char × Nat)) (n : Int),
      (Assembler.asmImm labels (.lit n) = none ↔ n < -2 ^ 31 ∨ 2 ^ 32 ≤ n) ∧
        ∀ v, Assembler.asmImm labels (.lit n) = some v → v = bits32 n

/-- R214: a file's instruction count is its length divided by 8, and a partial last word is refused or dropped. -/
def Obligations.LoaderCountsEightBytesPerWord : Prop :=
  ∀ (order : Config.ByteOrder) (bs : List Byte),
    (∃ ws, Adapters.wordsOfBytes order .dropPartial bs = some ws ∧ ws.length = bs.length / 8) ∧
      (bs.length % 8 ≠ 0 → Adapters.wordsOfBytes order .refuse bs = none) ∧
      (bs.length % 8 = 0 →
        Adapters.wordsOfBytes order .refuse bs = Adapters.wordsOfBytes order .dropPartial bs)

/-- R103: the digit counts of a trace line: pc 8, word 16, each register 8. -/
def Obligations.TraceLineDigitCounts : Prop :=
  ∀ (sel : Config.TracePcSelect) (r : TraceRecord),
    (Adapters.traceDigits sel r).map List.length = 8 :: 16 :: List.replicate r.regs.length 8

/-! The parameters, and more of the assembler. -/

/-- R8, D24: a core keeps its NUM_REGS and MEM_WORDS through every step. Every other statement is for every value of
them. -/
def Obligations.ParametersNeverChange : Prop := ∀ s t : State, step s = .next t → t.params = s.params

/-- R86: each mnemonic assembles exactly when its operands do, to the row's word of them, written as a number; `.word`
assembles to its value as written. -/
def Obligations.AssembledWordsOfEachMnemonic : Prop :=
  ∀ (n : Nat) (labels : List (List Char × Nat)) (w : InstrWord),
    (Assembler.assembleStmt n labels .halt = some w ↔ w = 0x0000000000000000) ∧
    (Assembler.assembleStmt n labels .nop = some w ↔ w = 0x0100000000000000) ∧
    (∀ a imm, Assembler.assembleStmt n labels (.li a imm) = some w ↔
      ∃ v, Assembler.asmImm labels imm = some v ∧ RegOperand n a ∧ w = asmWord 0x02 a 0 0 v) ∧
    (∀ a b, Assembler.assembleStmt n labels (.lw a b) = some w ↔
      RegOperand n a ∧ RegOperand n b ∧ w = asmWord 0x03 a b 0 0) ∧
    (∀ a b, Assembler.assembleStmt n labels (.sw a b) = some w ↔
      RegOperand n a ∧ RegOperand n b ∧ w = asmWord 0x04 a b 0 0) ∧
    (∀ a b c, Assembler.assembleStmt n labels (.add a b c) = some w ↔
      RegOperand n a ∧ RegOperand n b ∧ RegOperand n c ∧ w = asmWord 0x05 a b c 0) ∧
    (∀ a b c, Assembler.assembleStmt n labels (.sub a b c) = some w ↔
      RegOperand n a ∧ RegOperand n b ∧ RegOperand n c ∧ w = asmWord 0x06 a b c 0) ∧
    (∀ a b c, Assembler.assembleStmt n labels (.mult a b c) = some w ↔
      RegOperand n a ∧ RegOperand n b ∧ RegOperand n c ∧ w = asmWord 0x07 a b c 0) ∧
    (∀ a b c, Assembler.assembleStmt n labels (.div a b c) = some w ↔
      RegOperand n a ∧ RegOperand n b ∧ RegOperand n c ∧ w = asmWord 0x08 a b c 0) ∧
    (∀ imm, Assembler.assembleStmt n labels (.j imm) = some w ↔
      ∃ v, Assembler.asmImm labels imm = some v ∧ w = asmWord 0x09 0 0 0 v) ∧
    (∀ a, Assembler.assembleStmt n labels (.jr a) = some w ↔ RegOperand n a ∧ w = asmWord 0x0A a 0 0 0) ∧
    (∀ a b c, Assembler.assembleStmt n labels (.beq a b c) = some w ↔
      RegOperand n a ∧ RegOperand n b ∧ RegOperand n c ∧ w = asmWord 0x0B a b c 0) ∧
    (∀ a b c, Assembler.assembleStmt n labels (.bne a b c) = some w ↔
      RegOperand n a ∧ RegOperand n b ∧ RegOperand n c ∧ w = asmWord 0x0C a b c 0) ∧
    (∀ a, Assembler.assembleStmt n labels (.inc a) = some w ↔ RegOperand n a ∧ w = asmWord 0x0D a 0 0 0) ∧
    (∀ a, Assembler.assembleStmt n labels (.dec a) = some w ↔ RegOperand n a ∧ w = asmWord 0x0E a 0 0 0) ∧
    ∀ v, Assembler.assembleStmt n labels (.word v) = some w ↔ w = v

/-- R87: in a program whose labels differ, a label stands for the index of the next instruction: the number of
instructions before it. That one with no instruction after it stands for N is the model's choice (log 15). -/
def Obligations.LabelsStandForProgramIndices : Prop :=
  ∀ (before after : List Assembler.Line) (name : List Char) (st : Option Assembler.Stmt),
    ((Assembler.labelsFrom 0 (before ++ { label := some name, stmt := st } :: after)).map Prod.fst).Nodup →
      ∀ v, Assembler.asmImm (Assembler.labelsFrom 0 (before ++ { label := some name, stmt := st } :: after))
          (.label name) = some v ↔
        (before.filterMap Assembler.Line.stmt).length < 2 ^ 32 ∧ v = bits32 (before.filterMap Assembler.Line.stmt).length
end

