-- ==== Sys2Proof/Laws/Cells.lean ====
section
/-! SUPPORT. The laws of words by index: a read after a write, and the canonical form kept by every operation. -/

namespace Sys2Proof.Machine

variable {w : Nat}

theorem read_erase (m : Cells w) (a b : Nat) :
    (Cells.erase m a).read b = if b = a then 0 else m.read b := by
  induction m with
  | nil => simp [Cells.erase, Cells.read]
  | cons c rest ih =>
    obtain ⟨k, u⟩ := c
    unfold Cells.erase at ih ⊢
    by_cases hk : k = a
    · subst hk
      simp only [List.filter_cons, bne_self_eq_false, Bool.false_eq_true, if_false, ih, Cells.read]
      split
      · rfl
      · rw [if_neg (by omega)]
    · simp only [List.filter_cons, bne_iff_ne, ne_eq, hk, not_false_eq_true, if_true, Cells.read, ih]
      by_cases hb : b = a
      · subst hb; simp [hk]
      · simp [hb]

theorem read_insert (m : Cells w) (a b : Nat) (v : BitVec w) (h : ∀ c ∈ m, c.1 ≠ a) :
    (m.insert a v).read b = if b = a then v else m.read b := by
  induction m with
  | nil => simp [Cells.insert, Cells.read, eq_comm]
  | cons c rest ih =>
    obtain ⟨k, u⟩ := c
    have hk : k ≠ a := h (k, u) (by simp)
    have ih' := ih fun d hd => h d (by simp [hd])
    unfold Cells.insert
    split
    · simp [Cells.read, eq_comm]
    · simp only [Cells.read, ih']
      by_cases hb : b = a
      · subst hb; simp [hk]
      · simp [hb]

theorem erase_ne (m : Cells w) (a : Nat) : ∀ c ∈ Cells.erase m a, c.1 ≠ a := by
  intro c hc
  simpa using (List.mem_filter.mp hc).2

/-- A read after a write: the word written, at its index; every other word as before. -/
theorem read_write (m : Cells w) (a b : Nat) (v : BitVec w) :
    (Cells.write m a v).read b = if b = a then v else m.read b := by
  unfold Cells.write
  split
  · subst_vars; exact read_erase m a b
  · rw [read_insert _ _ _ _ (erase_ne m a), read_erase]
    by_cases hb : b = a <;> simp [hb]

theorem mem_insert (m : Cells w) (a : Nat) (v : BitVec w) (c : Nat × BitVec w) :
    c ∈ m.insert a v ↔ c = (a, v) ∨ c ∈ m := by
  induction m with
  | nil => simp [Cells.insert]
  | cons d rest ih =>
    unfold Cells.insert
    split
    · simp
    · simp only [List.mem_cons, ih]; tauto

theorem mem_write {m : Cells w} {a : Nat} {v : BitVec w} {c : Nat × BitVec w} (h : c ∈ Cells.write m a v) :
    c.1 = a ∨ c ∈ m := by
  unfold Cells.write at h
  split at h
  · exact .inr (List.mem_of_mem_filter h)
  · rcases (mem_insert _ _ _ _).mp h with rfl | h
    · exact .inl rfl
    · exact .inr (List.mem_of_mem_filter h)

theorem erase_canonical {m : Cells w} (h : Cells.canonical m) (a : Nat) : Cells.canonical (Cells.erase m a) :=
  ⟨h.1.filter _, fun c hc => h.2 c (List.mem_of_mem_filter hc)⟩

theorem insert_canonical {m : Cells w} (h : Cells.canonical m) {a : Nat} {v : BitVec w} (hv : v ≠ 0)
    (ha : ∀ c ∈ m, c.1 ≠ a) : Cells.canonical (m.insert a v) := by
  refine ⟨?_, fun c hc => ?_⟩
  · obtain ⟨hs, -⟩ := h
    induction m with
    | nil => simp [Cells.insert]
    | cons d rest ih =>
      obtain ⟨k, u⟩ := d
      have hk : k ≠ a := ha (k, u) (by simp)
      obtain ⟨hd, hr⟩ := List.pairwise_cons.mp hs
      unfold Cells.insert
      split
      · refine List.pairwise_cons.mpr ⟨?_, hs⟩
        intro c hc
        rcases List.mem_cons.mp hc with rfl | hc
        · assumption
        · exact lt_trans ‹a < k› (hd c hc)
      · refine List.pairwise_cons.mpr ⟨?_, ih (fun c hc => ha c (by simp [hc])) hr⟩
        intro c hc
        rcases (mem_insert _ _ _ _).mp hc with rfl | hc
        · show k < a
          omega
        · exact hd c hc
  · rcases (mem_insert _ _ _ _).mp hc with rfl | hc
    · exact hv
    · exact h.2 c hc

/-- A write keeps the canonical form. -/
theorem write_canonical {m : Cells w} (h : Cells.canonical m) (a : Nat) (v : BitVec w) :
    Cells.canonical (Cells.write m a v) := by
  unfold Cells.write
  split
  · exact erase_canonical h a
  · exact insert_canonical (erase_canonical h a) ‹_› (erase_ne m a)

/-- A read of data memory after a write. -/
theorem mem_read_write (m : Memory) (a b : Nat) (v : Word) :
    (m.write a v).read b = if b = a then v else m.read b := read_write m.cells a b v

@[simp] theorem mem_write_size (m : Memory) (a : Nat) (v : Word) : (m.write a v).size = m.size := rfl

/-- A write below MEM_WORDS keeps the data memory's form. -/
theorem memory_write_wf {m : Memory} (h : m.wf) {a : Nat} (ha : a < m.size) (v : Word) : (m.write a v).wf :=
  ⟨write_canonical h.1 _ _, fun c hc => (mem_write hc).elim (fun e => e ▸ ha) (h.2 c)⟩

theorem ofListFrom_ge (i : Nat) (ws : List (BitVec w)) :
    ∀ c ∈ Cells.ofListFrom i ws, i ≤ c.1 ∧ c.1 < i + ws.length ∧ c.2 ≠ 0 := by
  induction ws generalizing i with
  | nil => simp [Cells.ofListFrom]
  | cons v rest ih =>
    intro c hc
    unfold Cells.ofListFrom at hc
    have step : ∀ c ∈ Cells.ofListFrom (i + 1) rest, i ≤ c.1 ∧ c.1 < i + (v :: rest).length ∧ c.2 ≠ 0 := by
      intro c hc
      have := ih (i + 1) c hc
      simp only [List.length_cons]
      exact ⟨by omega, by omega, this.2.2⟩
    split at hc
    · exact step c hc
    · rcases List.mem_cons.mp hc with rfl | hc
      · exact ⟨le_refl _, by simp, ‹_›⟩
      · exact step c hc

/-- The cells of a list of words are canonical. -/
theorem ofListFrom_canonical (i : Nat) (ws : List (BitVec w)) : Cells.canonical (Cells.ofListFrom i ws) := by
  refine ⟨?_, fun c hc => (ofListFrom_ge i ws c hc).2.2⟩
  induction ws generalizing i with
  | nil => simp [Cells.ofListFrom]
  | cons v rest ih =>
    unfold Cells.ofListFrom
    split
    · exact ih (i + 1)
    · exact List.pairwise_cons.mpr ⟨fun c hc => (ofListFrom_ge (i + 1) rest c hc).1, ih (i + 1)⟩

/-- Reading the cells of a list of words gives its words. -/
theorem read_ofListFrom (i : Nat) (ws : List (BitVec w)) (k : Nat) :
    (Cells.ofListFrom i ws).read (i + k) = ws.getD k 0 := by
  induction ws generalizing i k with
  | nil => simp [Cells.ofListFrom, Cells.read]
  | cons v rest ih =>
    have hmiss : (Cells.ofListFrom (i + 1) rest).read i = 0 := by
      have key : ∀ (m : Cells w), (∀ c ∈ m, c.1 ≠ i) → m.read i = 0 := by
        intro m
        induction m with
        | nil => simp [Cells.read]
        | cons c t iht =>
          intro h
          simp only [Cells.read]
          rw [if_neg (h c (by simp))]
          exact iht fun d hd => h d (by simp [hd])
      exact key _ fun c hc => by have := (ofListFrom_ge (i + 1) rest c hc).1; omega
    unfold Cells.ofListFrom
    cases k with
    | zero =>
      split
      · simp [*]
      · simp [Cells.read]
    | succ k =>
      have := ih (i + 1) k
      rw [show i + 1 + k = i + (k + 1) by omega] at this
      split
      · simpa using this
      · simp only [Cells.read, List.getD_cons_succ]
        rwa [if_neg (by omega)]

/-- A program of at most 2^32 words is a well-formed program store. -/
theorem ofWords_wf {ws : List InstrWord} (h : ws.length ≤ Config.maxProgramWords) : (ProgramStore.ofWords ws).wf :=
  ⟨h, ofListFrom_canonical 0 ws, fun c hc => by have := (ofListFrom_ge 0 ws c hc).2.1; rwa [Nat.zero_add] at this⟩

/-- A word placed below index 2^32 keeps the program store well formed. -/
theorem place_wf {p : ProgramStore} (h : p.wf) {i : Nat} (hi : i < Config.maxProgramWords) (v : InstrWord) :
    (p.place i v).wf := by
  refine ⟨?_, write_canonical h.2.1 _ _, fun c hc => ?_⟩
  · have := h.1
    show max p.length (i + 1) ≤ _
    omega
  · show c.1 < max p.length (i + 1)
    rcases mem_write hc with e | hc
    · omega
    · have := h.2.2 c hc
      omega

end Sys2Proof.Machine
end

