-- ==== Sys2Proof/Laws/Fields.lean ====
section
/-! SUPPORT. The fields of a word and the word of fields undo each other (spec/30_encoding.md R70). -/

namespace Sys2Proof

/-- Every bit of a word made of fields, by its place in R70's layout. -/
theorem getLsbD_word (f : Fields) (i : Nat) :
    f.word.getLsbD i =
      if i < 32 then f.imm.getLsbD i
      else if i - 32 < 8 then f.c.getLsbD (i - 32)
      else if i - 40 < 8 then f.b.getLsbD (i - 40)
      else if i - 48 < 8 then f.a.getLsbD (i - 48)
      else f.opcode.getLsbD (i - 56) := by
  simp only [Fields.word, BitVec.getLsbD_append, Nat.sub_sub]

theorem fieldOpcode_word (f : Fields) : fieldOpcode f.word = f.opcode := by
  ext i hi
  rw [fieldOpcode, BitVec.getElem_extractLsb', getLsbD_word, if_neg (by omega), if_neg (by omega), if_neg (by omega),
    if_neg (by omega), show 56 + i - 56 = i by omega, BitVec.getLsbD_eq_getElem hi]

theorem fieldA_word (f : Fields) : fieldA f.word = f.a := by
  ext i hi
  rw [fieldA, BitVec.getElem_extractLsb', getLsbD_word, if_neg (by omega), if_neg (by omega), if_neg (by omega),
    if_pos (by omega), show 48 + i - 48 = i by omega, BitVec.getLsbD_eq_getElem hi]

theorem fieldB_word (f : Fields) : fieldB f.word = f.b := by
  ext i hi
  rw [fieldB, BitVec.getElem_extractLsb', getLsbD_word, if_neg (by omega), if_neg (by omega), if_pos (by omega),
    show 40 + i - 40 = i by omega, BitVec.getLsbD_eq_getElem hi]

theorem fieldC_word (f : Fields) : fieldC f.word = f.c := by
  ext i hi
  rw [fieldC, BitVec.getElem_extractLsb', getLsbD_word, if_neg (by omega), if_pos (by omega),
    show 32 + i - 32 = i by omega, BitVec.getLsbD_eq_getElem hi]

theorem fieldImm_word (f : Fields) : fieldImm f.word = f.imm := by
  ext i hi
  rw [fieldImm, BitVec.getElem_extractLsb', getLsbD_word, if_pos (by omega), show 0 + i = i by omega,
    BitVec.getLsbD_eq_getElem hi]

/-- The fields of a word made of fields are those fields. -/
theorem fieldsOf_word (f : Fields) : fieldsOf f.word = f := by
  simp only [fieldsOf, fieldOpcode_word, fieldA_word, fieldB_word, fieldC_word, fieldImm_word]

/-- A word is made of its fields: no bit is dropped. -/
theorem word_fieldsOf (w : InstrWord) : (fieldsOf w).word = w := by
  ext i hi
  rw [← BitVec.getLsbD_eq_getElem hi, ← BitVec.getLsbD_eq_getElem hi, getLsbD_word]
  simp only [fieldsOf, fieldImm, fieldC, fieldB, fieldA, fieldOpcode, BitVec.getLsbD_extractLsb']
  split
  · simp [*]
  split
  · simp only [*, decide_true, Bool.true_and]; congr 1; omega
  split
  · simp only [*, decide_true, Bool.true_and]; congr 1; omega
  split
  · simp only [*, decide_true, Bool.true_and]; congr 1; omega
  · rw [decide_eq_true (by omega), Bool.true_and]; congr 1; omega

/-- Decoding a word made of fields reads those fields. -/
theorem decode_word (f : Fields) : decode f.word = instrOf f := by
  simp only [decode, fieldsOf_word]

/-- Masking a word masks its fields. -/
theorem word_and (f g : Fields) :
    f.word &&& g.word = Fields.word ⟨f.opcode &&& g.opcode, f.a &&& g.a, f.b &&& g.b, f.c &&& g.c, f.imm &&& g.imm⟩ := by
  ext i hi
  rw [← BitVec.getLsbD_eq_getElem hi, ← BitVec.getLsbD_eq_getElem hi]
  simp only [BitVec.getLsbD_and, getLsbD_word]
  split_ifs <;> rfl

end Sys2Proof
end

