-- ==== Sys2Proof/Laws/Decode.lean ====
section
/-! SUPPORT. The opcode map as one case analysis (spec/30_encoding.md R78, R80), and what decoding reads by opcode. -/

namespace Sys2Proof

/-- The sixteen outcomes of `decode_op`, each with its opcodes. -/
theorem decodeOp_cases (o : Byte) :
    (o = 0x00 ∧ decodeOp o = .halt) ∨
    (o = 0x01 ∧ decodeOp o = .nop) ∨
    (o = 0x02 ∧ decodeOp o = .li) ∨
    (o = 0x03 ∧ decodeOp o = .lw) ∨
    (o = 0x04 ∧ decodeOp o = .sw) ∨
    (o = 0x05 ∧ decodeOp o = .add) ∨
    (o = 0x06 ∧ decodeOp o = .sub) ∨
    (o = 0x07 ∧ decodeOp o = .mult) ∨
    (o = 0x08 ∧ decodeOp o = .div) ∨
    (o = 0x09 ∧ decodeOp o = .j) ∨
    (o = 0x0A ∧ decodeOp o = .jr) ∨
    (o = 0x0B ∧ decodeOp o = .beq) ∨
    (o = 0x0C ∧ decodeOp o = .bne) ∨
    (o = 0x0D ∧ decodeOp o = .inc) ∨
    (o = 0x0E ∧ decodeOp o = .dec) ∨
    (0x0F ≤ o.toNat ∧ decodeOp o = .unknown) := by
  revert o
  decide

/-- Masking with all ones keeps a register field. -/
theorem and_ones8 (b : Byte) : b &&& 0xFF = b := BitVec.and_allOnes

/-- Masking with all ones keeps an immediate. -/
theorem and_ones32 (b : Word) : b &&& 0xFFFFFFFF = b := BitVec.and_allOnes

/-- Masking with zeros clears a field. -/
theorem and_zeros {n : Nat} (b : BitVec n) : b &&& 0 = 0 := BitVec.and_zero

/-- Masking a word with the bits an op uses keeps its opcode. -/
theorem fieldOpcode_and_usedBits (w : InstrWord) (op : Op) : fieldOpcode (w &&& usedBits op) = fieldOpcode w := by
  rw [← word_fieldsOf w, usedBits, word_and, fieldOpcode_word, fieldOpcode_word]
  cases op <;> exact and_ones8 _

end Sys2Proof
end

