-- ==== Sys2Proof/Laws/State.lean ====
section
/-! SUPPORT. What each update of a state leaves in each field: one lemma per field per update. -/

namespace Sys2Proof.Machine

/-! setReg -/

@[simp] theorem setReg_x (s : State) (r : Nat) (v : Word) : (s.setReg r v).x = s.x.set r v := rfl
@[simp] theorem setReg_pc (s : State) (r : Nat) (v : Word) : (s.setReg r v).pc = s.pc := rfl
@[simp] theorem setReg_prog (s : State) (r : Nat) (v : Word) : (s.setReg r v).prog = s.prog := rfl
@[simp] theorem setReg_mem (s : State) (r : Nat) (v : Word) : (s.setReg r v).mem = s.mem := rfl
@[simp] theorem setReg_run (s : State) (r : Nat) (v : Word) : (s.setReg r v).run = s.run := rfl
@[simp] theorem setReg_fr (s : State) (r : Nat) (v : Word) : (s.setReg r v).fr = s.fr := rfl
@[simp] theorem setReg_fetched (s : State) (r : Nat) (v : Word) : (s.setReg r v).fetched = s.fetched := rfl
@[simp] theorem setReg_trace (s : State) (r : Nat) (v : Word) : (s.setReg r v).trace = s.trace := rfl

/-! memWrite -/

@[simp] theorem memWrite_x (s : State) (a : Nat) (v : Word) : (s.memWrite a v).x = s.x := rfl
@[simp] theorem memWrite_pc (s : State) (a : Nat) (v : Word) : (s.memWrite a v).pc = s.pc := rfl
@[simp] theorem memWrite_prog (s : State) (a : Nat) (v : Word) : (s.memWrite a v).prog = s.prog := rfl
@[simp] theorem memWrite_mem (s : State) (a : Nat) (v : Word) : (s.memWrite a v).mem = s.mem.write a v := rfl
@[simp] theorem memWrite_run (s : State) (a : Nat) (v : Word) : (s.memWrite a v).run = s.run := rfl
@[simp] theorem memWrite_fr (s : State) (a : Nat) (v : Word) : (s.memWrite a v).fr = s.fr := rfl
@[simp] theorem memWrite_fetched (s : State) (a : Nat) (v : Word) : (s.memWrite a v).fetched = s.fetched := rfl
@[simp] theorem memWrite_trace (s : State) (a : Nat) (v : Word) : (s.memWrite a v).trace = s.trace := rfl

/-! setPc -/

@[simp] theorem setPc_x (s : State) (t : Word) : (s.setPc t).x = s.x := rfl
@[simp] theorem setPc_pc (s : State) (t : Word) : (s.setPc t).pc = t := rfl
@[simp] theorem setPc_prog (s : State) (t : Word) : (s.setPc t).prog = s.prog := rfl
@[simp] theorem setPc_mem (s : State) (t : Word) : (s.setPc t).mem = s.mem := rfl
@[simp] theorem setPc_run (s : State) (t : Word) : (s.setPc t).run = s.run := rfl
@[simp] theorem setPc_fr (s : State) (t : Word) : (s.setPc t).fr = s.fr := rfl
@[simp] theorem setPc_fetched (s : State) (t : Word) : (s.setPc t).fetched = s.fetched := rfl
@[simp] theorem setPc_trace (s : State) (t : Word) : (s.setPc t).trace = s.trace := rfl

/-! clearRun -/

@[simp] theorem clearRun_x (s : State) : (s.clearRun).x = s.x := rfl
@[simp] theorem clearRun_pc (s : State) : (s.clearRun).pc = s.pc := rfl
@[simp] theorem clearRun_prog (s : State) : (s.clearRun).prog = s.prog := rfl
@[simp] theorem clearRun_mem (s : State) : (s.clearRun).mem = s.mem := rfl
@[simp] theorem clearRun_run (s : State) : (s.clearRun).run = false := rfl
@[simp] theorem clearRun_fr (s : State) : (s.clearRun).fr = s.fr := rfl
@[simp] theorem clearRun_fetched (s : State) : (s.clearRun).fetched = s.fetched := rfl
@[simp] theorem clearRun_trace (s : State) : (s.clearRun).trace = s.trace := rfl

/-! takeFault -/

@[simp] theorem takeFault_x (s : State) (e : FaultEvent) : (s.takeFault e).x = s.x := rfl
@[simp] theorem takeFault_pc (s : State) (e : FaultEvent) : (s.takeFault e).pc = s.pc := rfl
@[simp] theorem takeFault_prog (s : State) (e : FaultEvent) : (s.takeFault e).prog = s.prog := rfl
@[simp] theorem takeFault_mem (s : State) (e : FaultEvent) : (s.takeFault e).mem = s.mem := rfl
@[simp] theorem takeFault_run (s : State) (e : FaultEvent) : (s.takeFault e).run = s.run := rfl
@[simp] theorem takeFault_fr (s : State) (e : FaultEvent) : (s.takeFault e).fr = e.record s.fetched s.pc := rfl
@[simp] theorem takeFault_fetched (s : State) (e : FaultEvent) : (s.takeFault e).fetched = s.fetched := rfl
@[simp] theorem takeFault_trace (s : State) (e : FaultEvent) : (s.takeFault e).trace = s.trace := rfl

/-! beginCycle -/

@[simp] theorem beginCycle_x (s : State) : (s.beginCycle).x = s.x := rfl
@[simp] theorem beginCycle_pc (s : State) : (s.beginCycle).pc = s.pc := rfl
@[simp] theorem beginCycle_prog (s : State) : (s.beginCycle).prog = s.prog := rfl
@[simp] theorem beginCycle_mem (s : State) : (s.beginCycle).mem = s.mem := rfl
@[simp] theorem beginCycle_run (s : State) : (s.beginCycle).run = s.run := rfl
@[simp] theorem beginCycle_fr (s : State) : (s.beginCycle).fr = s.fr := rfl
@[simp] theorem beginCycle_fetched (s : State) : (s.beginCycle).fetched = none := rfl
@[simp] theorem beginCycle_trace (s : State) : (s.beginCycle).trace = s.trace := rfl

/-! The parameters: no update changes them. -/

@[simp] theorem setReg_params (s : State) (r : Nat) (v : Word) : (s.setReg r v).params = s.params := by
  simp only [State.params, State.numRegs, setReg_x, List.length_set, State.memWords, setReg_mem]
@[simp] theorem memWrite_params (s : State) (a : Nat) (v : Word) : (s.memWrite a v).params = s.params := rfl
@[simp] theorem setPc_params (s : State) (t : Word) : (s.setPc t).params = s.params := rfl
@[simp] theorem clearRun_params (s : State) : (s.clearRun).params = s.params := rfl
@[simp] theorem takeFault_params (s : State) (e : FaultEvent) : (s.takeFault e).params = s.params := rfl
@[simp] theorem beginCycle_params (s : State) : (s.beginCycle).params = s.params := rfl

end Sys2Proof.Machine
end

