-- ==== Sys2Proof/Laws/Ops.lean ====
section
/-! SUPPORT. One lemma per shared operation: what an operand check answers, what a register or a data word reads
after a write, how an arm ends, and what the arithmetic is as bit vectors. -/

namespace Sys2Proof.Machine

/-! How an arm ends. -/

@[simp] theorem attempt_ok (s t : State) : s.attempt (.ok t) = .next t := rfl

@[simp] theorem attempt_error (s : State) (e : FaultEvent) : s.attempt (.error e) = .next (s.takeFault e) := rfl

/-- An arm that answers a next state made its effect, or took the fault its checks raised. -/
theorem attempt_eq_next {s t : State} {r : Except FaultEvent State} (h : s.attempt r = .next t) :
    r = .ok t ∨ ∃ e, r = .error e ∧ t = s.takeFault e := by
  cases r with
  | ok u => exact .inl (by simpa using h)
  | error e => exact .inr ⟨e, rfl, by simpa using h.symm⟩

/-! Registers. -/

theorem reg?_of_lt (s : State) (i : Byte) (h : i.toNat < s.numRegs) : s.reg? i = some (s.reg i.toNat) := by
  simp [State.reg?, State.reg, h]

theorem reg?_of_ge (s : State) (i : Byte) (h : s.numRegs ≤ i.toNat) : s.reg? i = none := by
  simpa [State.reg?] using h

/-- A field that reads a value names a register, which holds it. -/
theorem reg?_eq_some {s : State} {i : Byte} {v : Word} (h : s.reg? i = some v) :
    i.toNat < s.numRegs ∧ s.reg i.toNat = v := by
  by_cases hi : i.toNat < s.numRegs
  · rw [reg?_of_lt s i hi] at h; exact ⟨hi, Option.some.inj h⟩
  · rw [reg?_of_ge s i (by omega)] at h; cases h

/-- A register reads the value written to it; the others read as before. -/
theorem reg?_setReg (s : State) {r : Nat} (hr : r < s.numRegs) (v : Word) (i : Byte) :
    (s.setReg r v).reg? i = if i.toNat = r then some v else s.reg? i := by
  by_cases h : i.toNat = r
  · subst h; simp [State.reg?, hr]
  · rw [if_neg h, State.reg?, setReg_x, List.getElem?_set_ne (fun e => h e.symm)]; rfl

/-- Writing a register leaves the others. -/
theorem setReg_getElem?_ne (s : State) {r i : Nat} (v : Word) (h : i ≠ r) : (s.setReg r v).x[i]? = s.x[i]? := by
  rw [setReg_x, List.getElem?_set_ne (fun e => h e.symm)]

/-- A register reads as before when x is unchanged. -/
theorem reg?_congr {s t : State} (h : t.x = s.x) (i : Byte) : t.reg? i = s.reg? i := by
  simp only [State.reg?, h]

/-! Operand checks. -/

theorem checkReg_of_lt {n : Nat} (f : RegField) (i : Byte) (h : i.toNat < n) : checkReg n f i = .ok i.toNat := if_pos h

theorem checkReg_of_ge {n : Nat} (f : RegField) (i : Byte) (h : n ≤ i.toNat) :
    checkReg n f i = .error (.regIndexOutOfRange f i) := if_neg (by omega)

theorem checkAddr_of_valid {n : Nat} (v : Word) (h : 0 ≤ s32 v ∧ s32 v < n) :
    checkAddr n v = .ok (s32 v).toNat := if_pos h

theorem checkAddr_of_invalid {n : Nat} (v : Word) (h : ¬ (0 ≤ s32 v ∧ s32 v < n)) :
    checkAddr n v = .error (.memAddrOutOfRange v) := if_neg h

theorem checkDivisor_zero (n : Word) (d : Word) (h : s32 d = 0) : checkDivisor n d = .error (.divByZero n) := if_pos h

theorem checkDivisor_overflow (n d : Word) (hn : s32 n = -(2 ^ 31)) (hd : s32 d = -1) :
    checkDivisor n d = .error (.divOverflow n) := by
  rw [checkDivisor, if_neg (by omega), if_pos ⟨hn, hd⟩]

theorem checkDivisor_ok (n d : Word) (hz : s32 d ≠ 0) (ho : ¬ (s32 n = -(2 ^ 31) ∧ s32 d = -1)) :
    checkDivisor n d = .ok () := by
  rw [checkDivisor, if_neg hz, if_neg ho]

theorem checkA_of_lt {n : Nat} (a : Byte) (ha : a.toNat < n) : checkA n a = .ok a.toNat := if_pos ha

theorem checkAB_of_lt {n : Nat} (a b : Byte) (ha : a.toNat < n) (hb : b.toNat < n) :
    checkAB n a b = .ok { a := a.toNat, b := b.toNat } := by
  simp only [checkAB, checkReg_of_lt _ _ ha, checkReg_of_lt _ _ hb]
  rfl

theorem checkABC_of_lt {n : Nat} (a b c : Byte) (ha : a.toNat < n) (hb : b.toNat < n) (hc : c.toNat < n) :
    checkABC n a b c = .ok { a := a.toNat, b := b.toNat, c := c.toNat } := by
  simp only [checkABC, checkReg_of_lt _ _ ha, checkReg_of_lt _ _ hb, checkReg_of_lt _ _ hc]
  rfl

/-! The first used field that names no register (spec/60_exceptions.md R182, R188). -/

/-- What `firstBadReg` finds in a list of fields. -/
theorem find_bad_cons (n : Nat) (f : RegField) (i : Byte) (rest : List (RegField × Byte)) :
    ((f, i) :: rest).find? (fun p => decide (n ≤ p.2.toNat)) =
      if n ≤ i.toNat then some (f, i)
      else rest.find? (fun p => decide (n ≤ p.2.toNat)) := by
  rw [List.find?_cons]
  by_cases h : n ≤ i.toNat
  · rw [if_pos h, decide_eq_true h]
  · rw [if_neg h, decide_eq_false h]

theorem checkA_of_bad {n : Nat} {a : Byte} {f : RegField} {k : Byte}
    (h : [(RegField.a, a)].find? (fun p => decide (n ≤ p.2.toNat)) = some (f, k)) :
    checkA n a = .error (.regIndexOutOfRange f k) := by
  rw [find_bad_cons] at h
  split at h
  · cases h; exact checkReg_of_ge _ _ ‹_›
  · cases h

theorem checkAB_of_bad {n : Nat} {a b : Byte} {f : RegField} {k : Byte}
    (h : [(RegField.a, a), (RegField.b, b)].find? (fun p => decide (n ≤ p.2.toNat)) = some (f, k)) :
    checkAB n a b = .error (.regIndexOutOfRange f k) := by
  rw [find_bad_cons, find_bad_cons] at h
  unfold checkAB
  split at h
  · cases h; rw [checkReg_of_ge _ _ ‹_›]; rfl
  · rw [checkReg_of_lt _ a (by omega)]
    split at h
    · cases h; rw [checkReg_of_ge _ _ ‹_›]; rfl
    · cases h

theorem checkABC_of_bad {n : Nat} {a b c : Byte} {f : RegField} {k : Byte}
    (h : [(RegField.a, a), (RegField.b, b), (RegField.c, c)].find?
      (fun p => decide (n ≤ p.2.toNat)) = some (f, k)) :
    checkABC n a b c = .error (.regIndexOutOfRange f k) := by
  rw [find_bad_cons, find_bad_cons, find_bad_cons] at h
  unfold checkABC
  split at h
  · cases h; rw [checkReg_of_ge _ _ ‹_›]; rfl
  · rw [checkReg_of_lt _ a (by omega)]
    split at h
    · cases h; rw [checkReg_of_ge _ _ ‹_›]; rfl
    · rw [checkReg_of_lt _ b (by omega)]
      split at h
      · cases h; rw [checkReg_of_ge _ _ ‹_›]; rfl
      · cases h

/-! The fault record. -/

theorem record_fetched (e : FaultEvent) (f : Fetched) (pc : Word) :
    e.record (some f) pc = { cause := e.code, pc := f.pc, wordValid := true, word := f.word, info := e.info } := rfl

theorem record_none (e : FaultEvent) (pc : Word) :
    e.record none pc = { cause := e.code, pc := pc, wordValid := false, word := 0, info := e.info } := rfl

theorem code_bounds (e : FaultEvent) : 1 ≤ e.code.toNat ∧ e.code.toNat ≤ 5 := by
  cases e <;> simp [FaultEvent.code]

theorem record_cause (e : FaultEvent) (f : Option Fetched) (pc : Word) : (e.record f pc).cause = e.code := by
  cases f <;> rfl

/-- A fault leaves a cause that is not 0. -/
theorem takeFault_cause_ne (s : State) (e : FaultEvent) : (s.takeFault e).fr.cause ≠ 0 := by
  rw [takeFault_fr, record_cause]
  cases e <;> simp [FaultEvent.code]

/-! The control state (spec/10_state.md R30). -/

theorem control_running_iff (s : State) : s.control = .running ↔ s.run = true ∧ s.fr.cause = 0 := by
  unfold State.control
  split <;> split <;> simp_all

theorem control_halted_iff (s : State) : s.control = .halted ↔ s.run = false ∧ s.fr.cause = 0 := by
  unfold State.control
  split <;> split <;> simp_all

theorem control_impossible_iff (s : State) : s.control = .impossible ↔ s.run = false ∧ s.fr.cause ≠ 0 := by
  unfold State.control
  split <;> split <;> simp_all

theorem control_faulted_iff (s : State) : s.control = .faulted ↔ s.run = true ∧ s.fr.cause ≠ 0 := by
  unfold State.control
  split <;> split <;> simp_all

/-! Arithmetic as bit vectors (spec/00_scope.md R13). -/

theorem add32_eq (a b : Word) : add32 a b = a + b := by
  simp [add32, bits32, s32, BitVec.ofInt_add]

theorem sub32_eq (a b : Word) : sub32 a b = a - b := by
  simp [sub32, bits32, s32, Int.sub_eq_add_neg, BitVec.ofInt_add, BitVec.ofInt_neg, BitVec.sub_eq_add_neg]

theorem mul32_eq (a b : Word) : mul32 a b = a * b := by
  simp [mul32, bits32, s32, BitVec.ofInt_mul]

theorem nextIndex_eq (p : Word) : nextIndex p = p + 1 := by
  simp [nextIndex, bits32, u32, BitVec.ofInt_add]

end Sys2Proof.Machine
end

