-- ==== Sys2Proof/Laws/Exec.lean ====
section
/-! SUPPORT. What the dispatch and a cycle can do, said once: everything a later proof needs to know of an instruction
it does not look into. -/

namespace Sys2Proof.Machine

/-- The effects an arm can have (spec/40_execution_cycle.md R97), or the fault it takes. -/
inductive Effect (i : Instr) (s t : State) : Prop where
  | fault (e : FaultEvent) (h : t = s.takeFault e) (hf : e.code ≠ 1)
  | reg (r : Byte) (v : Word) (h : t = s.setReg r.toNat v) (hw : writesReg i = some r) (hr : r.toNat < s.numRegs)
  | mem (a : Nat) (v : Word) (h : t = s.memWrite a v) (hw : ∃ fa fb, i = .sw fa fb) (ha : a < s.memWords)
  | pc (v : Word) (h : t = s.setPc v)
      (hw : (∃ v, i = .j v) ∨ (∃ a, i = .jr a) ∨ (∃ a b c, i = .beq a b c) ∨ ∃ a b c, i = .bne a b c)
  | halt (h : t = s.clearRun) (hw : i = .halt)
  | nothing (h : t = s)

theorem checkA_cases (n : Nat) (a : Byte) :
    (a.toNat < n ∧ checkA n a = .ok a.toNat) ∨ ∃ f k, checkA n a = .error (.regIndexOutOfRange f k) := by
  by_cases ha : a.toNat < n
  · exact .inl ⟨ha, checkA_of_lt a ha⟩
  · exact .inr ⟨.a, a, checkReg_of_ge .a a (by omega)⟩

theorem checkAB_cases (n : Nat) (a b : Byte) :
    (a.toNat < n ∧ b.toNat < n ∧ checkAB n a b = .ok { a := a.toNat, b := b.toNat }) ∨
      ∃ f k, checkAB n a b = .error (.regIndexOutOfRange f k) := by
  by_cases ha : a.toNat < n
  · by_cases hb : b.toNat < n
    · exact .inl ⟨ha, hb, checkAB_of_lt a b ha hb⟩
    · refine .inr ⟨.b, b, ?_⟩
      simp only [checkAB, checkReg_of_lt _ _ ha, checkReg_of_ge _ _ (Nat.le_of_not_lt hb)]
      rfl
  · refine .inr ⟨.a, a, ?_⟩
    simp only [checkAB, checkReg_of_ge _ _ (Nat.le_of_not_lt ha)]
    rfl

theorem checkABC_cases (n : Nat) (a b c : Byte) :
    (a.toNat < n ∧ b.toNat < n ∧ c.toNat < n ∧
        checkABC n a b c = .ok { a := a.toNat, b := b.toNat, c := c.toNat }) ∨
      ∃ f k, checkABC n a b c = .error (.regIndexOutOfRange f k) := by
  by_cases ha : a.toNat < n
  · by_cases hb : b.toNat < n
    · by_cases hc : c.toNat < n
      · exact .inl ⟨ha, hb, hc, checkABC_of_lt a b c ha hb hc⟩
      · refine .inr ⟨.c, c, ?_⟩
        simp only [checkABC, checkReg_of_lt _ _ ha, checkReg_of_lt _ _ hb, checkReg_of_ge _ _ (Nat.le_of_not_lt hc)]
        rfl
    · refine .inr ⟨.b, b, ?_⟩
      simp only [checkABC, checkReg_of_lt _ _ ha, checkReg_of_ge _ _ (Nat.le_of_not_lt hb)]
      rfl
  · refine .inr ⟨.a, a, ?_⟩
    simp only [checkABC, checkReg_of_ge _ _ (Nat.le_of_not_lt ha)]
    rfl

theorem checkAddr_cases (n : Nat) (v : Word) :
    ((0 ≤ s32 v ∧ s32 v < n) ∧ checkAddr n v = .ok (s32 v).toNat) ∨ checkAddr n v = .error (.memAddrOutOfRange v) := by
  by_cases h : 0 ≤ s32 v ∧ s32 v < n
  · exact .inl ⟨h, checkAddr_of_valid v h⟩
  · exact .inr (checkAddr_of_invalid v h)

theorem checkDivisor_cases (n d : Word) :
    checkDivisor n d = .ok () ∨ checkDivisor n d = .error (.divByZero n) ∨
      checkDivisor n d = .error (.divOverflow n) := by
  unfold checkDivisor
  split
  · exact .inr (.inl rfl)
  · split
    · exact .inr (.inr rfl)
    · exact .inl rfl

theorem regIndex_code (f : RegField) (k : Byte) : (FaultEvent.regIndexOutOfRange f k).code ≠ 1 := by
  show (2 : BitVec 8) ≠ 1
  decide

theorem threeReg_effect {i : Instr} {a b c : Byte} (hi : writesReg i = some a)
    (f : Word → Word → Except FaultEvent Word) (hf : ∀ n m e, f n m = .error e → e.code ≠ 1) (s : State) :
    ∃ t, threeReg f a b c s = .next t ∧ Effect i s t := by
  unfold threeReg
  rcases checkABC_cases s.numRegs a b c with ⟨ha, -, -, h⟩ | ⟨f', k', h⟩
  · rw [h]
    cases hv : f (s.reg b.toNat) (s.reg c.toNat) with
    | ok v =>
      refine ⟨s.setReg a.toNat v, ?_, .reg a _ rfl hi ha⟩
      simp only [bind, Except.bind, pure, Except.pure, hv, attempt_ok]
    | error e =>
      refine ⟨s.takeFault e, ?_, .fault e rfl (hf _ _ _ hv)⟩
      simp only [bind, Except.bind, hv, attempt_error]
  · rw [h]
    exact ⟨_, rfl, .fault _ rfl (regIndex_code f' k')⟩

theorem branchIf_effect {i : Instr} {a b c : Byte}
    (hi : (∃ a b c, i = .beq a b c) ∨ ∃ a b c, i = .bne a b c) (f : Word → Word → Bool) (s : State) :
    ∃ t, branchIf f a b c s = .next t ∧ Effect i s t := by
  unfold branchIf
  rcases checkABC_cases s.numRegs a b c with ⟨-, -, -, h⟩ | ⟨f', k', h⟩
  · rw [h]
    cases hv : f (s.reg a.toNat) (s.reg b.toNat)
    · refine ⟨s, ?_, .nothing rfl⟩
      simp only [bind, Except.bind, pure, Except.pure, hv, Bool.false_eq_true, if_false, attempt_ok]
    · refine ⟨s.setPc (s.reg c.toNat), ?_, .pc _ rfl (.inr (.inr hi))⟩
      simp only [bind, Except.bind, pure, Except.pure, hv, if_true, attempt_ok]
  · rw [h]
    exact ⟨_, rfl, .fault _ rfl (regIndex_code f' k')⟩

theorem updateReg_effect {i : Instr} {a : Byte} (hi : writesReg i = some a) (f : Word → Word) (s : State) :
    ∃ t, updateReg f a s = .next t ∧ Effect i s t := by
  unfold updateReg
  rcases checkA_cases s.numRegs a with ⟨ha, h⟩ | ⟨f', k', h⟩
  · rw [h]
    exact ⟨s.setReg a.toNat (f (s.reg a.toNat)), rfl, .reg a _ rfl hi ha⟩
  · rw [h]
    exact ⟨_, rfl, .fault _ rfl (regIndex_code f' k')⟩

/-- What an instruction can do: it answers a next state that one of R97's effects made, or that took a fault. -/
theorem exec_effect (i : Instr) (s : State) : ∃ t, exec i s = .next t ∧ Effect i s t := by
  cases i with
  | halt => exact ⟨_, rfl, .halt rfl rfl⟩
  | nop => exact ⟨_, rfl, .nothing rfl⟩
  | unrecognized opcode => exact ⟨_, rfl, .nothing rfl⟩
  | j imm => exact ⟨_, rfl, .pc imm rfl (.inl ⟨imm, rfl⟩)⟩
  | li a imm =>
    simp only [exec, execLi]
    rcases checkA_cases s.numRegs a with ⟨ha, h⟩ | ⟨f', k', h⟩
    · rw [h]; exact ⟨s.setReg a.toNat imm, rfl, .reg a _ rfl rfl ha⟩
    · rw [h]; exact ⟨_, rfl, .fault _ rfl (regIndex_code f' k')⟩
  | lw a b =>
    simp only [exec, execLw]
    rcases checkAB_cases s.numRegs a b with ⟨ha, -, h⟩ | ⟨f', k', h⟩
    · rw [h]
      rcases checkAddr_cases s.memWords (s.reg b.toNat) with ⟨hv, hk⟩ | hk
      · refine ⟨s.setReg a.toNat (s.memRead (s32 (s.reg b.toNat)).toNat), ?_, .reg a _ rfl rfl ha⟩
        simp only [bind, Except.bind, pure, Except.pure, hk, attempt_ok]
      · refine ⟨s.takeFault (.memAddrOutOfRange (s.reg b.toNat)), ?_, .fault _ rfl (by show (3 : BitVec 8) ≠ 1; decide)⟩
        simp only [bind, Except.bind, hk, attempt_error]
    · rw [h]; exact ⟨_, rfl, .fault _ rfl (regIndex_code f' k')⟩
  | sw a b =>
    simp only [exec, execSw]
    rcases checkAB_cases s.numRegs a b with ⟨-, -, h⟩ | ⟨f', k', h⟩
    · rw [h]
      rcases checkAddr_cases s.memWords (s.reg b.toNat) with ⟨hv, hk⟩ | hk
      · refine ⟨s.memWrite (s32 (s.reg b.toNat)).toNat (s.reg a.toNat), ?_, .mem _ _ rfl ⟨a, b, rfl⟩ (by omega)⟩
        simp only [bind, Except.bind, pure, Except.pure, hk, attempt_ok]
      · refine ⟨s.takeFault (.memAddrOutOfRange (s.reg b.toNat)), ?_, .fault _ rfl (by show (3 : BitVec 8) ≠ 1; decide)⟩
        simp only [bind, Except.bind, hk, attempt_error]
    · rw [h]; exact ⟨_, rfl, .fault _ rfl (regIndex_code f' k')⟩
  | add a b c =>
    simp only [exec, execAdd]
    exact threeReg_effect rfl _ (by simp) s
  | sub a b c =>
    simp only [exec, execSub]
    exact threeReg_effect rfl _ (by simp) s
  | mult a b c =>
    simp only [exec, execMult]
    exact threeReg_effect rfl _ (by simp) s
  | div a b c =>
    simp only [exec, execDiv]
    refine threeReg_effect rfl _ (fun n m e h => ?_) s
    rcases checkDivisor_cases n m with hd | hd | hd <;> rw [hd] at h
    · simp [bind, Except.bind, pure, Except.pure] at h
    · cases h; show (4 : BitVec 8) ≠ 1; decide
    · cases h; show (5 : BitVec 8) ≠ 1; decide
  | jr a =>
    simp only [exec, execJr]
    rcases checkA_cases s.numRegs a with ⟨-, h⟩ | ⟨f', k', h⟩
    · rw [h]; exact ⟨s.setPc (s.reg a.toNat), rfl, .pc _ rfl (.inr (.inl ⟨a, rfl⟩))⟩
    · rw [h]; exact ⟨_, rfl, .fault _ rfl (regIndex_code f' k')⟩
  | beq a b c => exact branchIf_effect (.inl ⟨a, b, c, rfl⟩) _ s
  | bne a b c => exact branchIf_effect (.inr ⟨a, b, c, rfl⟩) _ s
  | inc a =>
    simp only [exec, execInc]
    exact updateReg_effect rfl _ s
  | dec a =>
    simp only [exec, execDec]
    exact updateReg_effect rfl _ s

/-- The state an instruction executes in: the word fetched, the pc incremented (R98). -/
def fetchedState (s : State) (w : InstrWord) : State :=
  { s with pc := nextIndex s.pc, fetched := some { pc := s.pc, word := w } }

theorem fetch_ok {s : State} {w : InstrWord} (h : s.prog.fetch (u32 s.pc) = some w) :
    s.fetch = .ok (w, fetchedState s w) := by
  simp only [State.fetch, h]
  rfl

theorem fetch_error {s : State} (h : s.prog.fetch (u32 s.pc) = none) : s.fetch = .error (.fetchOutOfRange s.pc) := by
  simp only [State.fetch, h]

/-- A cycle with no word to fetch takes FetchOutOfRange (R92). -/
theorem cycle_of_no_word {s : State} (h : s.prog.fetch (u32 s.pc) = none) :
    cycle s = .next (s.beginCycle.takeFault (.fetchOutOfRange s.pc)) := by
  simp only [cycle, fetch_error h, attempt_error]

/-- A cycle with a word to fetch executes what it decodes to, then emits the trace record (R90). -/
theorem cycle_of_word {s t : State} {w : InstrWord} (h : s.prog.fetch (u32 s.pc) = some w)
    (ht : exec (decode w) (fetchedState s w) = .next t) : cycle s = .next t.endCycle := by
  simp only [cycle, fetch_ok h, ht]

theorem step_running {s : State} (h : s.control = .running) : step s = cycle s := by simp only [step, h]

/-- Only RUNNING has a next state (R91). -/
theorem step_next_running {s t : State} (h : step s = .next t) : s.control = .running := by
  unfold step at h
  split at h
  · assumption
  all_goals cases h

/-- What a step can do: in RUNNING, the fetch faults, or an instruction's effect is followed by the cycle's end. -/
theorem step_cases {s t : State} (h : step s = .next t) :
    s.control = .running ∧
      ((s.prog.fetch (u32 s.pc) = none ∧ t = s.beginCycle.takeFault (.fetchOutOfRange s.pc)) ∨
        ∃ w u, s.prog.fetch (u32 s.pc) = some w ∧ exec (decode w) (fetchedState s w) = .next u ∧
          Effect (decode w) (fetchedState s w) u ∧ t = u.endCycle) := by
  have hr := step_next_running h
  refine ⟨hr, ?_⟩
  rw [step_running hr] at h
  cases hw : s.prog.fetch (u32 s.pc) with
  | none =>
    rw [cycle_of_no_word hw] at h
    cases h
    exact .inl ⟨rfl, rfl⟩
  | some w =>
    obtain ⟨u, hu, he⟩ := exec_effect (decode w) (fetchedState s w)
    rw [cycle_of_word hw hu] at h
    cases h
    exact .inr ⟨w, u, rfl, hu, he, rfl⟩

/-! The end of a cycle. -/

/-- The end of a cycle leaves nothing in flight and changes nothing else but the trace. -/
theorem endCycle_shape (s : State) : ∃ l, s.endCycle = { s with fetched := none, trace := l } := by
  unfold State.endCycle
  cases h : s.fetched with
  | none => exact ⟨s.trace, by cases s; cases h; rfl⟩
  | some f =>
    by_cases hc : s.fr.cause = 0
    · exact ⟨s.trace ++ [traceRecord f s], if_pos hc⟩
    · exact ⟨s.trace, if_neg hc⟩

@[simp] theorem endCycle_x (s : State) : s.endCycle.x = s.x := by
  obtain ⟨l, h⟩ := endCycle_shape s; rw [h]
@[simp] theorem endCycle_pc (s : State) : s.endCycle.pc = s.pc := by
  obtain ⟨l, h⟩ := endCycle_shape s; rw [h]
@[simp] theorem endCycle_prog (s : State) : s.endCycle.prog = s.prog := by
  obtain ⟨l, h⟩ := endCycle_shape s; rw [h]
@[simp] theorem endCycle_mem (s : State) : s.endCycle.mem = s.mem := by
  obtain ⟨l, h⟩ := endCycle_shape s; rw [h]
@[simp] theorem endCycle_run (s : State) : s.endCycle.run = s.run := by
  obtain ⟨l, h⟩ := endCycle_shape s; rw [h]
@[simp] theorem endCycle_fr (s : State) : s.endCycle.fr = s.fr := by
  obtain ⟨l, h⟩ := endCycle_shape s; rw [h]

@[simp] theorem endCycle_fetched (s : State) : s.endCycle.fetched = none := by
  obtain ⟨l, h⟩ := endCycle_shape s; rw [h]

/-- A completed cycle adds its record to the trace. -/
theorem endCycle_trace_of_completed {s : State} {f : Fetched} (hf : s.fetched = some f) (hc : s.fr.cause = 0) :
    s.endCycle.trace = s.trace ++ [traceRecord f s] := by
  simp only [State.endCycle, hf, hc, if_true]

/-- A faulting cycle leaves the trace. -/
theorem endCycle_trace_of_faulted {s : State} (hc : s.fr.cause ≠ 0) : s.endCycle.trace = s.trace := by
  unfold State.endCycle
  split
  · rfl
  · rw [if_neg hc]

/-- No instruction changes what was fetched, the program store or the trace. -/
theorem Effect.rest {i : Instr} {s t : State} (h : Effect i s t) :
    t.fetched = s.fetched ∧ t.prog = s.prog ∧ t.trace = s.trace := by
  cases h with
  | fault e h _ => subst h; exact ⟨rfl, rfl, rfl⟩
  | reg r v h _ _ => subst h; exact ⟨rfl, rfl, rfl⟩
  | mem a v h _ _ => subst h; exact ⟨rfl, rfl, rfl⟩
  | pc v h _ => subst h; exact ⟨rfl, rfl, rfl⟩
  | halt h _ => subst h; exact ⟨rfl, rfl, rfl⟩
  | nothing h => subst h; exact ⟨rfl, rfl, rfl⟩

/-- No instruction changes the parameters. -/
theorem Effect.params {i : Instr} {s t : State} (h : Effect i s t) : t.params = s.params := by
  cases h with
  | fault e h _ => subst h; exact takeFault_params s e
  | reg r v h _ _ => subst h; exact setReg_params s _ v
  | mem a v h _ _ => subst h; exact memWrite_params s a v
  | pc v h _ => subst h; exact setPc_params s v
  | halt h _ => subst h; exact clearRun_params s
  | nothing h => subst h; rfl

end Sys2Proof.Machine
end

