-- ==== Sys2Proof/Laws/PerInstr.lean ====
section
/-! SUPPORT. Per-instruction facts about the instructions as terms: the opcode a canonical word carries
(spec/30_encoding.md R78) is one that decodes to the same constructor. -/

namespace Sys2Proof.Laws.EncodeOpcode

/-- The canonical fields of a well-formed instruction read back as that instruction. -/
def Statement (i : Instr) : Prop := i.wf = true → instrOf i.fields = i

theorem halt : Statement .halt := fun _ => rfl
theorem nop : Statement .nop := fun _ => rfl
theorem li (a : Byte) (imm : Word) : Statement (.li a imm) := fun _ => rfl
theorem lw (a b : Byte) : Statement (.lw a b) := fun _ => rfl
theorem sw (a b : Byte) : Statement (.sw a b) := fun _ => rfl
theorem add (a b c : Byte) : Statement (.add a b c) := fun _ => rfl
theorem sub (a b c : Byte) : Statement (.sub a b c) := fun _ => rfl
theorem mult (a b c : Byte) : Statement (.mult a b c) := fun _ => rfl
theorem div (a b c : Byte) : Statement (.div a b c) := fun _ => rfl
theorem j (imm : Word) : Statement (.j imm) := fun _ => rfl
theorem jr (a : Byte) : Statement (.jr a) := fun _ => rfl
theorem beq (a b c : Byte) : Statement (.beq a b c) := fun _ => rfl
theorem bne (a b c : Byte) : Statement (.bne a b c) := fun _ => rfl
theorem inc (a : Byte) : Statement (.inc a) := fun _ => rfl
theorem dec (a : Byte) : Statement (.dec a) := fun _ => rfl
theorem unrecognized (opcode : Byte) : Statement (.unrecognized opcode) := by
  revert opcode
  unfold Statement
  decide

end Sys2Proof.Laws.EncodeOpcode
end

