-- ==== Sys2Proof/Tests/Slice0.lean ====
section
/-! SUPPORT. Tests. The words and results are those of spec/95_test_vectors.md (tables 2.1 to 2.8 and section 1), or
worked out by hand from the rules named. The `witness_` theorems show, for each obligation with hypotheses, states and
operands that meet them all together, at the boundary values of its clauses. -/

namespace Sys2Proof.Tests

open Sys2Proof.Machine

/-! Well-formedness: the only check is on the unrecognized opcode (R79, R170). -/

theorem test_wf_refuses_dec_opcode : (Instr.unrecognized 0x0E).wf = false := by decide
theorem test_wf_refuses_halt_opcode : (Instr.unrecognized 0x00).wf = false := by decide
theorem test_wf_accepts_first_and_last :
    (Instr.unrecognized 0x0F).wf = true ∧ (Instr.unrecognized 0xFF).wf = true := by decide

/-! Decoding, one word per constructor; the fields a row ignores hold junk where the vector has it. -/

theorem test_decode_halt : decode 0x00FFFFFF12345678 = .halt := by decide
theorem test_decode_nop : decode 0x0100000000000000 = .nop := by decide
theorem test_decode_li : decode 0x02030000FFFFFFF9 = .li 3 0xFFFFFFF9 := by decide
theorem test_decode_lw : decode 0x0305090000000000 = .lw 5 9 := by decide
theorem test_decode_sw : decode 0x0400010000000000 = .sw 0 1 := by decide
theorem test_decode_add : decode 0x0502000100000000 = .add 2 0 1 := by decide
theorem test_decode_sub : decode 0x0600010200000000 = .sub 0 1 2 := by decide
theorem test_decode_mult : decode 0x0700010200000000 = .mult 0 1 2 := by decide
theorem test_decode_div : decode 0x0800020300000000 = .div 0 2 3 := by decide
theorem test_decode_j : decode 0x09FFFFFF0000000B = .j 11 := by decide
theorem test_decode_jr : decode 0x0A04000000000000 = .jr 4 := by decide
theorem test_decode_beq : decode 0x0B00010700000000 = .beq 0 1 7 := by decide
theorem test_decode_bne : decode 0x0C00020300000000 = .bne 0 2 3 := by decide
theorem test_decode_inc : decode 0x0D07000000000000 = .inc 7 := by decide
theorem test_decode_dec : decode 0x0E02000000000000 = .dec 2 := by decide
theorem test_decode_unrecognized :
    decode 0x0F00000000000000 = .unrecognized 0x0F ∧ decode 0xFFFFFFFFFFFFFFFF = .unrecognized 0xFF := by decide

/-- A word written bit by bit from R70: opcode 00001100, A 00000011, B 00000010, C 00000001, imm 0. -/
theorem test_decode_bits :
    decode 0b0000110000000011000000100000000100000000000000000000000000000000 = .bne 3 2 1 := by decide

theorem test_fields_of_word :
    fieldsOf 0x123456789ABCDEF0 = { opcode := 0x12, a := 0x34, b := 0x56, c := 0x78, imm := 0x9ABCDEF0 } := by decide

theorem test_encode_words :
    encode (.li 0 5) = 0x0200000000000005 ∧ encode (.beq 2 3 0) = 0x0B02030000000000 ∧
      encode (.sw 0 3) = 0x0400030000000000 ∧ encode (.j 11) = 0x090000000000000B ∧ encode .halt = 0 := by decide

/-- R71: 64 bits are an instruction, more are not; log 11. -/
theorem test_decode_table_word :
    decodeTableWord 64 0x0D01000000000000 = some (.inc 1) ∧ decodeTableWord 65 0 = none := by decide

/-! One step. -/

/-- A state about to fetch `w` at `p`. -/
def stateAt (p : Word) (w : InstrWord) (a b c d : Word) (mem : Cells 32) : State :=
  { State.reset with x := [a, b, c, d], pc := p, prog := State.reset.prog.place p.toNat w, mem := { State.reset.mem with cells := mem } }

/-- The next state, if there is one. -/
def after (s : State) : Option State :=
  match step s with
  | .next t => some t
  | .fault _ => none
  | .refused _ => none

/-- Four registers, the pc and FR.cause of the next state. -/
def seen (s : State) : Option (List Word × Word × BitVec 8) :=
  (after s).map fun t => (t.x, t.pc, t.fr.cause)

/-- The fault record of the next state. -/
def faultOf (s : State) : Option FaultRecord := (after s).map State.fr

theorem test_halt_with_junk_fields :
    (after (stateAt 3 0x00FFFFFF12345678 0 0 0 0 [])).map (fun t => (t.run, t.pc, t.control, t.dispatches)) =
      some (false, 4, .halted, 1) := by decide

theorem test_nop_wraps_the_pc :
    seen (stateAt 0xFFFFFFFF 0x0100000000000000 1 2 3 4 []) = some ([1, 2, 3, 4], 0, 0) := by decide

theorem test_li_ignores_b_and_c :
    seen (stateAt 0 0x0201FFFF0000002A 0 0 0 0 []) = some ([0, 0x2A, 0, 0], 1, 0) := by decide
theorem test_li_faults_on_a :
    faultOf (stateAt 7 0x0204000000000001 0 0 0 0 []) = some ⟨2, 7, true, 0x0204000000000001, 4⟩ := by decide

theorem test_lw_reads_the_last_word :
    seen (stateAt 0 0x0300010000000000 0 65534 0 0 [(65534, 9)]) = some ([9, 65534, 0, 0], 1, 0) := by decide
theorem test_lw_faults :
    faultOf (stateAt 0 0x0300010000000000 0 65535 0 0 []) = some ⟨3, 0, true, 0x0300010000000000, 0xFFFF⟩ ∧
      faultOf (stateAt 0 0x0305090000000000 0 0 0 0 []) = some ⟨2, 0, true, 0x0305090000000000, 5⟩ ∧
      faultOf (stateAt 0 0x0300090000000000 0 0 0 0 []) = some ⟨2, 0, true, 0x0300090000000000, 0x109⟩ := by decide

theorem test_sw_address_and_data_one_register :
    (after (stateAt 0 0x0402020000000000 0 0 3 0 [(5, 1)])).map State.mem = some { size := 65535, cells := [(3, 3), (5, 1)] } := by decide
theorem test_sw_negative_address_faults :
    faultOf (stateAt 2 0x0400010000000000 1 0x80000000 0 0 []) =
      some ⟨3, 2, true, 0x0400010000000000, 0x80000000⟩ := by decide

theorem test_add_wraps :
    seen (stateAt 0 0x0500010200000000 0 0xFFFFFFFF 0xFFFFFFFF 0 []) =
      some ([0xFFFFFFFE, 0xFFFFFFFF, 0xFFFFFFFF, 0], 1, 0) := by decide
theorem test_add_faults_on_b :
    faultOf (stateAt 0 0x0500FF0000000000 0 0 0 0 []) = some ⟨2, 0, true, 0x0500FF0000000000, 0x1FF⟩ := by decide

theorem test_sub_order :
    seen (stateAt 0 0x0600010200000000 0 3 7 0 []) = some ([0xFFFFFFFC, 3, 7, 0], 1, 0) := by decide
theorem test_sub_wraps :
    seen (stateAt 0 0x0600010200000000 0 0 0x80000000 0 []) = some ([0x80000000, 0, 0x80000000, 0], 1, 0) := by decide

theorem test_mult_keeps_the_low_half :
    seen (stateAt 0 0x0700010200000000 0 0x00010001 0x00010001 0 []) =
      some ([0x00020001, 0x00010001, 0x00010001, 0], 1, 0) := by decide
theorem test_mult_of_negative :
    seen (stateAt 0 0x0700010200000000 0 0xFFFFFFF9 3 0 []) = some ([0xFFFFFFEB, 0xFFFFFFF9, 3, 0], 1, 0) := by decide

theorem test_div_rounds_toward_zero :
    seen (stateAt 0 0x0800010200000000 0 0xFFFFFFF9 3 0 []) = some ([0xFFFFFFFE, 0xFFFFFFF9, 3, 0], 1, 0) := by decide
theorem test_div_faults :
    seen (stateAt 3 0x0800010200000000 0x11111111 7 0 0 []) = some ([0x11111111, 7, 0, 0], 4, 4) ∧
      faultOf (stateAt 3 0x0800010200000000 0 7 0 0 []) = some ⟨4, 3, true, 0x0800010200000000, 7⟩ ∧
      faultOf (stateAt 3 0x0800010200000000 0 0x80000000 0xFFFFFFFF 0 []) =
        some ⟨5, 3, true, 0x0800010200000000, 0x80000000⟩ := by decide

theorem test_j_to_the_last_index :
    seen (stateAt 9 0x09000000FFFFFFFF 0 0 0 0 []) = some ([0, 0, 0, 0], 0xFFFFFFFF, 0) := by decide
theorem test_j_with_junk_fields :
    seen (stateAt 9 0x09FFFFFF0000000B 0 0 0 0 []) = some ([0, 0, 0, 0], 11, 0) := by decide

theorem test_jr : seen (stateAt 9 0x0A00000000000000 4 0 0 0 []) = some ([4, 0, 0, 0], 4, 0) := by decide
theorem test_jr_faults_on_a :
    faultOf (stateAt 9 0x0A04000000000000 0 0 0 0 []) = some ⟨2, 9, true, 0x0A04000000000000, 4⟩ := by decide

theorem test_beq_taken_and_not :
    seen (stateAt 10 0x0B00010300000000 5 5 0 32 []) = some ([5, 5, 0, 32], 32, 0) ∧
      seen (stateAt 10 0x0B00010300000000 5 6 0 32 []) = some ([5, 6, 0, 32], 11, 0) := by decide
theorem test_beq_checks_c_when_not_taken :
    faultOf (stateAt 0 0x0B00010700000000 1 0 0 0 []) = some ⟨2, 0, true, 0x0B00010700000000, 0x207⟩ := by decide

theorem test_bne_taken_and_not :
    seen (stateAt 10 0x0C00010300000000 5 6 0 32 []) = some ([5, 6, 0, 32], 32, 0) ∧
      seen (stateAt 10 0x0C00010300000000 5 5 0 32 []) = some ([5, 5, 0, 32], 11, 0) := by decide

theorem test_inc_wraps :
    seen (stateAt 0 0x0D00000000000000 0xFFFFFFFF 0 0 0 []) = some ([0, 0, 0, 0], 1, 0) := by decide
theorem test_inc_faults_on_a :
    faultOf (stateAt 0 0x0D07000000000000 0 0 0 0 []) = some ⟨2, 0, true, 0x0D07000000000000, 7⟩ := by decide

theorem test_dec_wraps :
    seen (stateAt 0 0x0E00000000000000 0 0 0 0 []) = some ([0xFFFFFFFF, 0, 0, 0], 1, 0) := by decide
theorem test_dec_of_most_negative :
    seen (stateAt 0 0x0E00000000000000 0x80000000 0 0 0 []) = some ([0x7FFFFFFF, 0, 0, 0], 1, 0) := by decide

theorem test_unrecognized_checks_no_field :
    seen (stateAt 7 0x10FF000000000000 1 2 3 4 []) = some ([1, 2, 3, 4], 8, 0) ∧
      seen (stateAt 7 0xFFFFFFFFFFFFFFFF 1 2 3 4 []) = some ([1, 2, 3, 4], 8, 0) := by decide

/-- Table 2.8: the first cycle with N = 0. -/
theorem test_fetch_fault_after_reset :
    (after State.reset).map (fun t => (t.fr, t.pc, t.run, t.dispatches)) = some (⟨1, 0, false, 0, 0⟩, 0, true, 0) := by
  decide

/-- R101: the record of a taken branch. -/
theorem test_trace_record :
    (after (stateAt 10 0x0B00010300000000 5 5 0 32 [])).map State.trace =
      some [{ pcFetch := 10, pcPost := 11, pcNext := 32, word := 0x0B00010300000000, regs := [5, 5, 0, 32] }] := by
  decide

/-- R8, D24: a core of 2 registers and 8 data words: its last register and word, and one past each. -/
def smallCore (w : InstrWord) (a b : Word) : State :=
  { State.resetOf { numRegs := 2, memWords := 8 } with x := [a, b], prog := ProgramStore.ofWords [w] }

theorem test_parameters_registers :
    seen (smallCore 0x0D01000000000000 0 5) = some ([0, 6], 1, 0) ∧
      faultOf (smallCore 0x0D02000000000000 0 5) = some ⟨2, 0, true, 0x0D02000000000000, 2⟩ := by decide
theorem test_parameters_memory :
    (after (smallCore 0x0400010000000000 9 7)).map State.mem = some { size := 8, cells := [(7, 9)] } ∧
      faultOf (smallCore 0x0400010000000000 9 8) = some ⟨3, 0, true, 0x0400010000000000, 8⟩ := by decide

/-! Around the core. -/

/-- R85 to R87, on the lines of program P2 of spec/95 with a label in place of its index. -/
theorem test_assemble :
    Assembler.assemble 4 "li r3, loop\nloop: add r1, r1, r0 ; sum\n dec r0\nbne r0,r2,r3\nj -1\n".toList =
      some [0x0203000000000001, 0x0501010000000000, 0x0E00000000000000, 0x0C00020300000000, 0x09000000FFFFFFFF] := by
  decide +kernel

/-- R85: a register number of NUM_REGS is refused; log 15: zeros may stand before a number. -/
theorem test_assemble_registers : Assembler.assemble 4 "inc r4".toList = none ∧
    Assembler.assemble 4 "inc r03".toList = some [0x0D03000000000000] := by decide +kernel

/-- R214: eight bytes per word, in both byte orders of R54. -/
theorem test_words_of_bytes :
    Adapters.wordsOfBytes .bigEndian .refuse [0x0D, 1, 0, 0, 0, 0, 0, 0] = some [0x0D01000000000000] ∧
      Adapters.wordsOfBytes .littleEndian .refuse [0, 0, 0, 0, 0, 0, 1, 0x0D] = some [0x0D01000000000000] ∧
      Adapters.wordsOfBytes .bigEndian .refuse [0x0D, 1, 0, 0, 0, 0, 0] = none ∧
      Adapters.wordsOfBytes .bigEndian .dropPartial [0x0D, 1, 0, 0, 0, 0, 0] = some [] := by decide

/-- R103: the digits of a pc. -/
theorem test_hex_digits : Adapters.hexDigits 8 0x0000002A = [0, 0, 0, 0, 0, 0, 2, 10] := by decide

/-! Witnesses. Each meets every hypothesis of an obligation, or of one clause of it, at a boundary value. -/

/-- A state inside a cycle: the word of a fetch at 0 in flight. -/
def inCycle (w : InstrWord) (a b c d : Word) : State :=
  { stateAt 1 w a b c d [] with fetched := some { pc := 0, word := w } }

/-- Two words of program: nop, halt. -/
def nopHalt : State := { State.reset with prog := ProgramStore.ofWords [0x0100000000000000, 0] }

/-- A halted state and a faulted one. -/
def haltedState : State := { State.reset with run := false }
def faultedState : State := { State.reset with fr := ⟨1, 0, false, 0, 0⟩ }

theorem witness_DecodeOfEncode :
    (Instr.unrecognized 0x0F).wf = true ∧ (Instr.unrecognized 0xFF).wf = true ∧ (Instr.add 0xFF 0 3).wf = true ∧
      (Instr.li 0xFF 0xFFFFFFFF).wf = true := by decide

theorem witness_UnusedFieldsAreIgnored :
    (0x09FFFFFF0000000B : InstrWord) &&& usedBits (decodeOp (fieldOpcode 0x09FFFFFF0000000B)) =
      0x090000000000000B &&& usedBits (decodeOp (fieldOpcode 0x09FFFFFF0000000B)) := by decide

theorem witness_OpcodeMapOfDecoder : 0x0F ≤ (0x0F : Byte).toNat ∧ 0x0F ≤ (0xFF : Byte).toNat := by decide

theorem witness_StepRunsDecodedInstruction_no_word :
    State.reset.control = .running ∧ State.reset.prog.length ≤ u32 State.reset.pc := by decide
theorem witness_StepRunsDecodedInstruction_word :
    nopHalt.control = .running ∧ nopHalt.prog.fetch (u32 nopHalt.pc) = some 0x0100000000000000 ∧
      decode 0x0100000000000000 = .nop := by decide
theorem witness_StepRunsDecodedInstruction_faulting :
    (stateAt 0 0x0A04000000000000 0 0 0 0 []).control = .running ∧
      (stateAt 0 0x0A04000000000000 0 0 0 0 []).prog.fetch 0 = some 0x0A04000000000000 ∧
      decode 0x0A04000000000000 = .jr 4 := by decide

theorem witness_NoStepOutsideRunning_halted : haltedState.control = .halted := by decide
theorem witness_NoStepOutsideRunning_faulted : faultedState.control = .faulted := by decide
theorem witness_NoStepOutsideRunning_next : ∃ t, step nopHalt = .next t := ⟨_, rfl⟩

theorem witness_RunningAlwaysSteps : State.reset.control = .running := by decide

theorem witness_PcAdvancesByOne :
    (stateAt 0xFFFFFFFF 0x0100000000000000 0 0 0 0 []).prog.fetch (u32 0xFFFFFFFF) = some 0x0100000000000000 ∧
      (∃ t, step (stateAt 0xFFFFFFFF 0x0100000000000000 0 0 0 0 []) = .next t) ∧
      (fieldOpcode 0x0100000000000000).toNat ∉ [0x09, 0x0A, 0x0B, 0x0C] := ⟨by decide, ⟨_, rfl⟩, by decide⟩

theorem witness_CompletedCycleEmitsTraceRecord : ∃ t, step nopHalt = .next t ∧ t.fr.cause = 0 := ⟨_, rfl, rfl⟩
theorem witness_CompletedCycleEmitsTraceRecord_faulting :
    ∃ t, step State.reset = .next t ∧ t.fr.cause ≠ 0 := ⟨_, rfl, by decide⟩

theorem witness_TraceIsOutputOnly_completed : ∃ t, step nopHalt = .next t := ⟨_, rfl⟩
theorem witness_TraceIsOutputOnly_faulting : ∃ t, step State.reset = .next t := ⟨_, rfl⟩

theorem witness_AtMostOneWritePerCycle_register :
    (stateAt 0 0x0D03000000000000 0 0 0 7 []).prog.fetch 0 = some 0x0D03000000000000 ∧
      ∃ t, step (stateAt 0 0x0D03000000000000 0 0 0 7 []) = .next t := ⟨by decide, ⟨_, rfl⟩⟩
theorem witness_AtMostOneWritePerCycle_memory :
    (stateAt 0 0x0400010000000000 9 65534 0 0 []).prog.fetch 0 = some 0x0400010000000000 ∧
      ∃ t, step (stateAt 0 0x0400010000000000 9 65534 0 0 []) = .next t := ⟨by decide, ⟨_, rfl⟩⟩

theorem witness_HaltedRunCountsDispatches_step : (∃ t, step nopHalt = .next t) ∧ ∃ t, step State.reset = .next t :=
  ⟨⟨_, rfl⟩, ⟨_, rfl⟩⟩
theorem witness_HaltedRunCountsDispatches : ∃ t, runToEnd 2 nopHalt = some t ∧ t.control = .halted := ⟨_, rfl, rfl⟩
theorem witness_HaltedRunCountsDispatches_no_cycle :
    ∃ t, runToEnd 0 haltedState = some t ∧ t.control = .halted := ⟨_, rfl, rfl⟩

theorem witness_EndedRunIsFinal_halted : ∃ t, runToEnd 2 nopHalt = some t := ⟨_, rfl⟩
theorem witness_EndedRunIsFinal_faulted : ∃ t, runToEnd 1 State.reset = some t := ⟨_, rfl⟩

theorem witness_HaltStopsTheCore :
    (stateAt 0 0x00FFFFFF12345678 0 0 0 0 []).control = .running ∧
      (stateAt 0 0x00FFFFFF12345678 0 0 0 0 []).prog.fetch 0 = some 0x00FFFFFF12345678 ∧
      fieldOpcode 0x00FFFFFF12345678 = 0x00 := by decide

theorem witness_NopChangesNothing :
    nopHalt.control = .running ∧ nopHalt.prog.fetch (u32 nopHalt.pc) = some 0x0100000000000000 ∧
      fieldOpcode 0x0100000000000000 = 0x01 := by decide

theorem witness_UnrecognizedOpcodesChangeNothing_first :
    (stateAt 0 0x0F00000000000000 0 0 0 0 []).control = .running ∧
      (stateAt 0 0x0F00000000000000 0 0 0 0 []).prog.fetch 0 = some 0x0F00000000000000 ∧
      0x0F ≤ (fieldOpcode 0x0F00000000000000).toNat := by decide
theorem witness_UnrecognizedOpcodesChangeNothing_last :
    (stateAt 0 0xFFFFFFFFFFFFFFFF 0 0 0 0 []).control = .running ∧
      (stateAt 0 0xFFFFFFFFFFFFFFFF 0 0 0 0 []).prog.fetch 0 = some 0xFFFFFFFFFFFFFFFF ∧
      0x0F ≤ (fieldOpcode 0xFFFFFFFFFFFFFFFF).toNat := by decide

/-- For every `DecodesAs`: a word of each opcode it is stated of. -/
theorem witness_DecodesAs :
    fieldOpcode 0x00FFFFFF12345678 = 0x00 ∧ fieldOpcode 0x0100000000000000 = 0x01 ∧
      fieldOpcode 0x0201FFFF0000002A = 0x02 ∧ fieldOpcode 0x0305090000000000 = 0x03 ∧
      fieldOpcode 0x0400010000000000 = 0x04 ∧ fieldOpcode 0x0500FF0000000000 = 0x05 ∧
      fieldOpcode 0x0600010200000000 = 0x06 ∧ fieldOpcode 0x0700010200000000 = 0x07 ∧
      fieldOpcode 0x0800010200000000 = 0x08 ∧ fieldOpcode 0x09FFFFFF0000000B = 0x09 ∧
      fieldOpcode 0x0A04000000000000 = 0x0A ∧ fieldOpcode 0x0B00010700000000 = 0x0B ∧
      fieldOpcode 0x0C00020300000000 = 0x0C ∧ fieldOpcode 0x0D07000000000000 = 0x0D ∧
      fieldOpcode 0x0E02000000000000 = 0x0E := by decide

/-- For every `RegFaults`: the first register number past the last, in each field the instruction uses. -/
theorem witness_RegFaults :
    firstBadReg 4 (.li 4 0) = some (.a, 4) ∧ firstBadReg 4 (.lw 4 9) = some (.a, 4) ∧
      firstBadReg 4 (.lw 3 4) = some (.b, 4) ∧ firstBadReg 4 (.sw 0xFF 0) = some (.a, 0xFF) ∧
      firstBadReg 4 (.sw 0 4) = some (.b, 4) ∧ firstBadReg 4 (.add 4 4 4) = some (.a, 4) ∧
      firstBadReg 4 (.add 3 0xFF 4) = some (.b, 0xFF) ∧ firstBadReg 4 (.sub 3 3 4) = some (.c, 4) ∧
      firstBadReg 4 (.mult 0 1 0xFF) = some (.c, 0xFF) ∧ firstBadReg 4 (.div 0 4 0) = some (.b, 4) ∧
      firstBadReg 4 (.jr 4) = some (.a, 4) ∧ firstBadReg 4 (.beq 0 1 4) = some (.c, 4) ∧
      firstBadReg 4 (.bne 4 0 0) = some (.a, 4) ∧ firstBadReg 4 (.inc 4) = some (.a, 4) ∧
      firstBadReg 4 (.dec 0xFF) = some (.a, 0xFF) := by decide

/-- li, and the register read of inc, dec and jr: the last register. -/
theorem witness_LiLoadsTheImmediate : (3 : Byte).toNat < State.reset.numRegs := by decide

theorem witness_LwLoadsTheWord_valid :
    (3 : Byte).toNat < (inCycle 0x0303010000000000 0 65534 0 0).numRegs ∧ (inCycle 0x0303010000000000 0 65534 0 0).reg? 1 = some 65534 ∧
      (inCycle 0x0303010000000000 0 65534 0 0).ValidAddr 65534 ∧ (inCycle 0x0303010000000000 0 65534 0 0).ValidAddr 0 := by decide
theorem witness_LwLoadsTheWord_invalid :
    (1 : Byte).toNat < (inCycle 0x0301010000000000 0 65535 0 0).numRegs ∧ (inCycle 0x0301010000000000 0 65535 0 0).reg? 1 = some 65535 ∧
      ¬ (inCycle 0x0301010000000000 0 65535 0 0).ValidAddr 65535 ∧ ¬ (inCycle 0x0301010000000000 0 65535 0 0).ValidAddr 0xFFFFFFFF ∧ ¬ (inCycle 0x0301010000000000 0 65535 0 0).ValidAddr 0x80000000 := by decide

theorem witness_SwStoresTheWord_valid :
    (inCycle 0x0402020000000000 0 0 3 0).reg? 2 = some 3 ∧ (inCycle 0x0402020000000000 0 0 3 0).ValidAddr 3 := by decide
theorem witness_SwStoresTheWord_invalid :
    (inCycle 0x0400010000000000 7 0xFFFFFFFF 0 0).reg? 0 = some 7 ∧
      (inCycle 0x0400010000000000 7 0xFFFFFFFF 0 0).reg? 1 = some 0xFFFFFFFF ∧ ¬ (inCycle 0x0400010000000000 7 0xFFFFFFFF 0 0).ValidAddr 0xFFFFFFFF := by decide

theorem witness_LoadReadsTheLastStore_same_index :
    (inCycle 0x0400010000000000 7 16 0 0).reg? 0 = some 7 ∧ (inCycle 0x0400010000000000 7 16 0 0).reg? 1 = some 16 ∧
      (2 : Byte).toNat < (inCycle 0x0400010000000000 7 16 0 0).numRegs ∧ (inCycle 0x0400010000000000 7 16 0 0).ValidAddr 16 ∧
      ∃ t, exec (.sw 0 1) (inCycle 0x0400010000000000 7 16 0 0) = .next t := by
  exact ⟨by decide, by decide, by decide, by decide, ⟨_, rfl⟩⟩
theorem witness_LoadReadsTheLastStore_other_index :
    (inCycle 0x0400010000000000 7 16 17 0).reg? 0 = some 7 ∧ (inCycle 0x0400010000000000 7 16 17 0).reg? 1 = some 16 ∧
      (inCycle 0x0400010000000000 7 16 17 0).reg? 2 = some 17 ∧ (3 : Byte).toNat < (inCycle 0x0400010000000000 7 16 17 0).numRegs ∧ (inCycle 0x0400010000000000 7 16 17 0).ValidAddr 16 ∧
      (inCycle 0x0400010000000000 7 16 17 0).ValidAddr 17 ∧ ∃ t, exec (.sw 0 1) (inCycle 0x0400010000000000 7 16 17 0) = .next t := by
  exact ⟨by decide, by decide, by decide, by decide, by decide, by decide, ⟨_, rfl⟩⟩

/-- add, sub, mult and AddSubMultIgnoreSignedness: operands of both signs, the destination one of the sources. -/
theorem witness_AddSubMult :
    (3 : Byte).toNat < (inCycle 0 0x7FFFFFFF 0 0 0x80000000).numRegs ∧ (inCycle 0 0x7FFFFFFF 0 0 0x80000000).reg? 0 = some 0x7FFFFFFF ∧
      (inCycle 0 0x7FFFFFFF 0 0 0x80000000).reg? 3 = some 0x80000000 := by decide

theorem witness_DivRoundsTowardZero_zero :
    (0 : Byte).toNat < (inCycle 0 5 0 0 0).numRegs ∧ (inCycle 0 5 0 0 0).reg? 0 = some 5 ∧ (inCycle 0 5 0 0 0).reg? 1 = some 0 := by
  decide
theorem witness_DivRoundsTowardZero_overflow :
    (0 : Byte).toNat < (inCycle 0 0x80000000 0xFFFFFFFF 0 0).numRegs ∧ (inCycle 0 0x80000000 0xFFFFFFFF 0 0).reg? 0 = some 0x80000000 ∧
      (inCycle 0 0x80000000 0xFFFFFFFF 0 0).reg? 1 = some 0xFFFFFFFF := by decide
/-- A quotient of the most negative number that does not overflow. -/
theorem witness_DivRoundsTowardZero_quotient :
    (3 : Byte).toNat < (inCycle 0 0x80000000 1 0 0).numRegs ∧ (inCycle 0 0x80000000 1 0 0).reg? 0 = some 0x80000000 ∧
      (inCycle 0 0x80000000 1 0 0).reg? 1 = some 1 ∧ (1 : Word) ≠ 0 ∧
      ¬ ((0x80000000 : Word) = 0x80000000 ∧ (1 : Word) = 0xFFFFFFFF) := by decide

/-- The four sign combinations of 7 and 3. -/
theorem witness_DivQuotientBySigns :
    (2 : Byte).toNat < (inCycle 0 7 3 0xFFFFFFF9 0xFFFFFFFD).numRegs ∧ (inCycle 0 7 3 0xFFFFFFF9 0xFFFFFFFD).reg? 0 = some 7 ∧
      (inCycle 0 7 3 0xFFFFFFF9 0xFFFFFFFD).reg? 1 = some 3 ∧
      (inCycle 0 7 3 0xFFFFFFF9 0xFFFFFFFD).reg? 2 = some 0xFFFFFFF9 ∧
      (inCycle 0 7 3 0xFFFFFFF9 0xFFFFFFFD).reg? 3 = some 0xFFFFFFFD ∧ 0 ≤ (7 : Word).toInt ∧ 0 < (3 : Word).toInt ∧
      (0xFFFFFFF9 : Word).toInt < 0 ∧ (0xFFFFFFFD : Word).toInt < 0 ∧ (3 : Word) ≠ 0 ∧ (0xFFFFFFFD : Word) ≠ 0 := by
  decide

/-- The first index past the program. -/
theorem witness_JLoadsThePc :
    (stateAt 0 0x0900000000000001 0 0 0 0 []).control = .running ∧
      (stateAt 0 0x0900000000000001 0 0 0 0 []).prog.fetch 0 = some 0x0900000000000001 ∧
      fieldOpcode 0x0900000000000001 = 0x09 ∧
      (stateAt 0 0x0900000000000001 0 0 0 0 []).prog.length ≤ u32 (fieldImm 0x0900000000000001) := by decide

/-- jr, inc and dec: the last register. -/
theorem witness_JrIncDec : (inCycle 0 0 0 0 0xFFFFFFFF).reg? 3 = some 0xFFFFFFFF := by decide

/-- beq and bne: equal operands and different ones. -/
theorem witness_BeqBne :
    (inCycle 0 5 5 6 32).reg? 0 = some 5 ∧ (inCycle 0 5 5 6 32).reg? 1 = some 5 ∧
      (inCycle 0 5 5 6 32).reg? 2 = some 6 ∧ (inCycle 0 5 5 6 32).reg? 3 = some 32 := by decide

theorem witness_FaultTakenIffDue :
    dueFault (.lw 0 4) (inCycle 0 0 0 0 0) = some (.regIndexOutOfRange .b 4) ∧
      dueFault (.sw 0 1) (inCycle 0 0 65535 0 0) = some (.memAddrOutOfRange 65535) ∧
      dueFault (.div 0 1 2) (inCycle 0 0 0x80000000 0 0) = some (.divByZero 0x80000000) ∧
      dueFault (.div 0 1 2) (inCycle 0 0 0x80000000 0xFFFFFFFF 0) = some (.divOverflow 0x80000000) ∧
      dueFault (.div 4 1 2) (inCycle 0 0 5 0 0) = some (.regIndexOutOfRange .a 4) ∧
      dueFault (.lw 0 1) (inCycle 0 0 65534 0 0) = none ∧ dueFault .halt State.reset = none := by decide

theorem witness_FetchOutOfRangeIsTaken :
    State.reset.control = .running ∧ State.reset.prog.length ≤ u32 State.reset.pc ∧
      { nopHalt with pc := 2 }.control = .running ∧ { nopHalt with pc := 2 }.prog.length ≤ u32 2 := by decide

theorem witness_FaultsArePrecise_fetch :
    ∃ t, step State.reset = .next t ∧ t.fr.cause ≠ 0 ∧ State.reset.prog.fetch (u32 State.reset.pc) = none :=
  ⟨_, rfl, by decide, rfl⟩
theorem witness_FaultsArePrecise_execute :
    ∃ t, step (stateAt 3 0x0800010200000000 1 7 0 0 []) = .next t ∧ t.fr.cause ≠ 0 ∧
      (stateAt 3 0x0800010200000000 1 7 0 0 []).prog.fetch 3 = some 0x0800010200000000 :=
  ⟨_, rfl, by decide, by decide⟩

theorem witness_OnlyHaltClearsRun_halt : ∃ t, step (stateAt 0 0 0 0 0 0 []) = .next t ∧ t.run = false := ⟨_, rfl, rfl⟩
theorem witness_OnlyHaltClearsRun_boot : ∃ t, State.boot Config.defaultParams [] = some t := ⟨_, if_pos (by decide)⟩
theorem witness_OnlyHaltClearsRun_stopped : haltedState.run = false := by decide
theorem witness_OnlyHaltClearsRun_other : ∃ t, step nopHalt = .next t ∧ t.run = true := ⟨_, rfl, rfl⟩

theorem witness_OnlyNamedRegistersAreUsed_written :
    (∃ t, exec (.li 1 9) (inCycle 0 0 0 0 0) = .next t) ∧ 1 < (inCycle 0 0 0 0 0).numRegs ∧
      (∀ b ∈ readsRegs (.li 1 9), b.toNat ≠ 1) ∧ ∀ a, writesReg (.li 1 9) = some a → a.toNat ≠ 3 :=
  ⟨⟨_, rfl⟩, by decide, by decide, fun a h => by cases h; decide⟩
theorem witness_OnlyNamedRegistersAreUsed_unnamed :
    (∃ t, exec (.beq 0 1 2) (inCycle 0 0 0 0 0) = .next t) ∧ 3 < (inCycle 0 0 0 0 0).numRegs ∧
      (∀ b ∈ readsRegs (.beq 0 1 2), b.toNat ≠ 3) ∧ ∀ a, writesReg (.beq 0 1 2) = some a → a.toNat ≠ 3 :=
  ⟨⟨_, rfl⟩, by decide, by decide, fun a h => by cases h⟩

theorem witness_OnlyFetchReachesTheProgramStore :
    (∃ t, step (stateAt 0 0x0400010000000000 9 0 0 0 []) = .next t) ∧
      ∃ t, exec (.lw 0 1) (inCycle 0x0300010000000000 0 5 0 0) = .next t := ⟨⟨_, rfl⟩, ⟨_, rfl⟩⟩

theorem witness_OnlyLwReadsAndSwWritesMemory_reads :
    { State.reset.mem with cells := [(5, 7)] }.size = (inCycle 0x0400010000000000 0 5 0 0).memWords ∧
      (∀ a b, Instr.sw 0 1 ≠ .lw a b) ∧ ∃ t, exec (.sw 0 1) (inCycle 0x0400010000000000 0 5 0 0) = .next t :=
  ⟨rfl, fun _ _ => by simp, ⟨_, rfl⟩⟩
/-- A word fetched that is no sw, and no word fetched. -/
theorem witness_OnlyLwReadsAndSwWritesMemory :
    (∃ t, step nopHalt = .next t) ∧ nopHalt.prog.fetch (u32 nopHalt.pc) = some 0x0100000000000000 ∧
      fieldOpcode 0x0100000000000000 ≠ 0x04 ∧ (∃ t, step State.reset = .next t) ∧
      State.reset.prog.fetch (u32 State.reset.pc) = none := ⟨⟨_, rfl⟩, by decide, by decide, ⟨_, rfl⟩, by decide⟩

theorem witness_ResetGivesEveryResetValue :
    [0x0D01000000000000, (0 : InstrWord)].length ≤ 2 ^ 32 ∧ 3 < State.reset.numRegs ∧ 65534 < State.reset.memWords := by
  decide

theorem witness_BootMeetsInvariant : ∃ t, State.boot Config.defaultParams [0x0D01000000000000, 0] = some t := ⟨_, if_pos (by decide)⟩

/-- A state with a listed word at each end of the data memory, about to store. -/
theorem witness_StepKeepsInvariant :
    Inv (stateAt 0 0x0400010000000000 9 65534 0 0 [(0, 1), (65534, 2)]) ∧
      ∃ t, step (stateAt 0 0x0400010000000000 9 65534 0 0 [(0, 1), (65534, 2)]) = .next t :=
  ⟨⟨by decide, by decide, by decide, .inl rfl, rfl⟩, ⟨_, rfl⟩⟩

theorem witness_PlacedWordIsFetchedNext :
    decodeTableWord 64 0x0D01000000000000 = some (.inc 1) ∧ decodeTableWord 8 0 = some .halt := by decide

theorem witness_BlocksComposeToTheStep : (stateAt 0 0x0400010000000000 9 65535 0 0 []).control = .running := by decide

theorem witness_ParametersNeverChange : ∃ t, step (stateAt 0 0x0402020000000000 0 0 3 0 []) = .next t := ⟨_, rfl⟩

/-- Operands at the ends of their ranges, and one past them. -/
theorem witness_AssembledWordsOfEachMnemonic :
    Assembler.asmImm [] (.lit (2 ^ 32 - 1)) = some 0xFFFFFFFF ∧ RegOperand 4 3 ∧ ¬ RegOperand 4 4 ∧ RegOperand 300 255 ∧
      ¬ RegOperand 300 256 ∧ asmWord 0x0B 1 2 3 0 = 0x0B01020300000000 := by decide

/-- The labels of program P2's loop: `a` before two instructions, `loop` after them. -/
theorem witness_LabelsStandForProgramIndices :
    (Assembler.labelsFrom 0
      ([{ label := some ['a'], stmt := some .nop }, { label := none, stmt := none },
        { label := none, stmt := some (.li 3 (.lit 2)) }] ++
        { label := some ['l'], stmt := none } :: [{ label := none, stmt := some (.dec 0) }])).map Prod.fst =
        [['a'], ['l']] ∧ [['a'], ['l']].Nodup := by decide

theorem witness_AssembledWordsAreCanonical :
    Assembler.assembleStmt 4 [] (.li 3 (.lit (-1))) = some 0x02030000FFFFFFFF ∧
      Assembler.assembleStmt 4 [] (.word 0x09FFFFFF0000000B) = some 0x09FFFFFF0000000B ∧
      Assembler.assembleStmt 4 [("loop".toList, 2)] (.j (.label "loop".toList)) = some 0x0900000000000002 := by decide

theorem witness_AssemblerOperandRanges :
    Assembler.asmReg 4 3 = some 3 ∧ Assembler.asmReg 4 4 = none ∧ Assembler.asmNum (-2 ^ 31) = some 0x80000000 ∧
      Assembler.asmNum (2 ^ 32 - 1) = some 0xFFFFFFFF ∧ Assembler.asmNum (-2 ^ 31 - 1) = none ∧
      Assembler.asmNum (2 ^ 32) = none := by decide

theorem witness_LoaderCountsEightBytesPerWord :
    ([1, 2, 3, 4, 5, 6, 7] : List Byte).length % 8 ≠ 0 ∧ ([] : List Byte).length % 8 = 0 ∧
      ([1, 2, 3, 4, 5, 6, 7, 8] : List Byte).length % 8 = 0 := by decide

end Sys2Proof.Tests
end

section
/-! The parameters of a core are fixed by the host and kept by every step (spec/00_scope.md R8, D24). -/

namespace Sys2Proof.Machine

/-- Fetching a word and moving the pc on (R92, R93) touches neither the register file nor the data memory. -/
@[simp] theorem fetchedState_params (s : State) (w : InstrWord) : (fetchedState s w).params = s.params := rfl

@[simp] theorem endCycle_params (s : State) : s.endCycle.params = s.params := by
  simp only [State.params, State.numRegs, State.memWords, endCycle_x, endCycle_mem]

/-- Settles O53: a fetch fault writes FR only, and otherwise the fetch, the instruction's effect and the cycle's end
each keep the parameters. -/
theorem parametersNeverChange : Obligations.ParametersNeverChange := by
  intro s t h
  obtain ⟨-, ⟨-, rfl⟩ | ⟨w, u, -, -, heffect, rfl⟩⟩ := step_cases h
  · rw [takeFault_params, beginCycle_params]
  · calc u.endCycle.params = u.params := endCycle_params u
      _ = (fetchedState s w).params := heffect.params
      _ = s.params := fetchedState_params s w

end Sys2Proof.Machine
end

section
/-! What exec answers, said once for every instruction: it takes the fault that is due (`dueFault`;
spec/60_exceptions.md R188), or makes the one write the instruction asks for (spec/40_execution_cycle.md R97). -/

namespace Sys2Proof.Machine

/-! The effect of a cycle that raises no fault. -/

/-- The one write of an instruction, if it has one (R97). -/
inductive Write where
  | reg (r : Byte) (v : Word)
  | mem (a : Nat) (v : Word)
  | pc (target : Word)
  | clearRun
  | nothing

/-- A write, made. -/
def Write.apply : Write → State → State
  | .reg r v, s => s.setReg r.toNat v
  | .mem a v, s => s.memWrite a v
  | .pc target, s => s.setPc target
  | .clearRun, s => s.clearRun
  | .nothing, s => s

/-- The write an instruction asks for once its checks have passed (spec files 41 to 46). -/
def writeOf : Instr → State → Write
  | .halt, _ => .clearRun
  | .nop, _ => .nothing
  | .li a imm, _ => .reg a imm
  | .lw a b, s => .reg a (s.memRead (s32 (s.reg b.toNat)).toNat)
  | .sw a b, s => .mem (s32 (s.reg b.toNat)).toNat (s.reg a.toNat)
  | .add a b c, s => .reg a (add32 (s.reg b.toNat) (s.reg c.toNat))
  | .sub a b c, s => .reg a (sub32 (s.reg b.toNat) (s.reg c.toNat))
  | .mult a b c, s => .reg a (mul32 (s.reg b.toNat) (s.reg c.toNat))
  | .div a b c, s => .reg a (div32 (s.reg b.toNat) (s.reg c.toNat))
  | .j imm, _ => .pc imm
  | .jr a, s => .pc (s.reg a.toNat)
  | .beq a b c, s => if s.reg a.toNat = s.reg b.toNat then .pc (s.reg c.toNat) else .nothing
  | .bne a b c, s => if s.reg a.toNat = s.reg b.toNat then .nothing else .pc (s.reg c.toNat)
  | .inc a, s => .reg a (add32 (s.reg a.toNat) 1)
  | .dec a, s => .reg a (sub32 (s.reg a.toNat) 1)
  | .unrecognized _, _ => .nothing

/-! The due fault, by its checks. -/

theorem s32_inj {v w : Word} : s32 v = s32 w ↔ v = w := BitVec.toInt_inj

/-- The divisor checks raise the fault that `dueFault` reads off the patterns. -/
theorem checkDivisor_eq (n d : Word) :
    checkDivisor n d = (dueFault.divFault (some n) (some d)).elim (.ok ()) .error := by
  have hzero : s32 d = 0 ↔ d = 0 := s32_inj (w := 0)
  have hmin : s32 n = -(2 ^ 31) ↔ n = 0x80000000 := s32_inj (w := 0x80000000)
  have hneg : s32 d = -1 ↔ d = 0xFFFFFFFF := s32_inj (w := 0xFFFFFFFF)
  simp only [checkDivisor, dueFault.divFault, hzero, hmin, hneg]
  split
  · rfl
  · split <;> rfl

/-- The address check raises the fault that `dueFault` reads off the address. -/
theorem checkAddr_eq (s : State) (v : Word) :
    checkAddr s.memWords v = (dueFault.addrFault s (some v)).elim (.ok (s32 v).toNat) .error := by
  simp only [checkAddr, dueFault.addrFault]
  split <;> rfl

/-- A used field that names no register is the fault due, before any other (R188). -/
theorem dueFault_of_badReg {i : Instr} {s : State} {f : RegField} {k : Byte}
    (h : firstBadReg s.numRegs i = some (f, k)) : dueFault i s = some (.regIndexOutOfRange f k) := by
  simp only [dueFault, h]

/-- With no bad field, every register field the instruction uses names a register. -/
theorem lt_of_firstBadReg {n : Nat} {i : Instr} (h : firstBadReg n i = none) : ∀ p ∈ usedRegs i, p.2.toNat < n := by
  intro p hp
  simpa using List.find?_eq_none.mp h p hp

/-! What exec answers. -/

theorem threeReg_of_badReg (f : Word → Word → Except FaultEvent Word) {a b c : Byte} {s : State} {e : FaultEvent}
    (h : checkABC s.numRegs a b c = .error e) : threeReg f a b c s = .next (s.takeFault e) := by
  simp only [threeReg, h]
  rfl

theorem branchIf_of_badReg (f : Word → Word → Bool) {a b c : Byte} {s : State} {e : FaultEvent}
    (h : checkABC s.numRegs a b c = .error e) : branchIf f a b c s = .next (s.takeFault e) := by
  simp only [branchIf, h]
  rfl

/-- A used field that names no register is the fault taken, whatever the instruction (R182). -/
theorem exec_of_badReg {i : Instr} {s : State} {f : RegField} {k : Byte} (h : firstBadReg s.numRegs i = some (f, k)) :
    exec i s = .next (s.takeFault (.regIndexOutOfRange f k)) := by
  cases i with
  | halt => cases h
  | nop => cases h
  | j imm => cases h
  | unrecognized opcode => cases h
  | li a imm => simp only [exec, execLi, checkA_of_bad h]; rfl
  | lw a b => simp only [exec, execLw, checkAB_of_bad h]; rfl
  | sw a b => simp only [exec, execSw, checkAB_of_bad h]; rfl
  | jr a => simp only [exec, execJr, checkA_of_bad h]; rfl
  | inc a => simp only [exec, execInc, updateReg, checkA_of_bad h]; rfl
  | dec a => simp only [exec, execDec, updateReg, checkA_of_bad h]; rfl
  | add a b c => rw [exec, execAdd, threeReg_of_badReg _ (checkABC_of_bad h)]
  | sub a b c => rw [exec, execSub, threeReg_of_badReg _ (checkABC_of_bad h)]
  | mult a b c => rw [exec, execMult, threeReg_of_badReg _ (checkABC_of_bad h)]
  | div a b c => rw [exec, execDiv, threeReg_of_badReg _ (checkABC_of_bad h)]
  | beq a b c => exact branchIf_of_badReg _ (checkABC_of_bad h)
  | bne a b c => exact branchIf_of_badReg _ (checkABC_of_bad h)

theorem threeReg_of_lt (f : Word → Word → Except FaultEvent Word) {a b c : Byte} {s : State}
    (h : a.toNat < s.numRegs ∧ b.toNat < s.numRegs ∧ c.toNat < s.numRegs) :
    threeReg f a b c s = s.attempt ((f (s.reg b.toNat) (s.reg c.toNat)).map (s.setReg a.toNat)) := by
  obtain ⟨ha, hb, hc⟩ := h
  simp only [threeReg, checkABC_of_lt _ _ _ ha hb hc]
  rfl

theorem branchIf_of_lt (f : Word → Word → Bool) {a b c : Byte} {s : State}
    (h : a.toNat < s.numRegs ∧ b.toNat < s.numRegs ∧ c.toNat < s.numRegs) :
    branchIf f a b c s =
      .next (if f (s.reg a.toNat) (s.reg b.toNat) then s.setPc (s.reg c.toNat) else s) := by
  obtain ⟨ha, hb, hc⟩ := h
  simp only [branchIf, checkABC_of_lt _ _ _ ha hb hc]
  rfl

theorem updateReg_of_lt (f : Word → Word) {a : Byte} {s : State} (h : a.toNat < s.numRegs) :
    updateReg f a s = .next (s.setReg a.toNat (f (s.reg a.toNat))) := by
  simp only [updateReg, checkA_of_lt _ h]
  rfl

/-- What every instruction answers (R96, R97, R188): the fault due is taken, and where none is due the write is made. -/
theorem exec_eq (i : Instr) (s : State) :
    exec i s = .next ((dueFault i s).elim ((writeOf i s).apply s) s.takeFault) := by
  cases hbad : firstBadReg s.numRegs i with
  | some p => rw [exec_of_badReg hbad, dueFault_of_badReg hbad]; rfl
  | none =>
    have hlt := lt_of_firstBadReg hbad
    cases i <;> simp only [dueFault, hbad, Option.elim_none, writeOf, usedRegs, List.forall_mem_cons,
      List.not_mem_nil, IsEmpty.forall_iff, implies_true, and_true] at hlt ⊢
    case halt | nop | j | unrecognized => rfl
    case li a imm => simp only [exec, execLi, checkA_of_lt _ hlt]; rfl
    case jr a => simp only [exec, execJr, checkA_of_lt _ hlt]; rfl
    case inc a => rw [exec, execInc, updateReg_of_lt _ hlt]; rfl
    case dec a => rw [exec, execDec, updateReg_of_lt _ hlt]; rfl
    case add a b c => rw [exec, execAdd, threeReg_of_lt _ hlt]; rfl
    case sub a b c => rw [exec, execSub, threeReg_of_lt _ hlt]; rfl
    case mult a b c => rw [exec, execMult, threeReg_of_lt _ hlt]; rfl
    case div a b c =>
      have ⟨_, hb, hc⟩ := hlt
      rw [exec, execDiv, threeReg_of_lt _ hlt, checkDivisor_eq, reg?_of_lt _ _ hb, reg?_of_lt _ _ hc]
      cases dueFault.divFault (some (s.reg b.toNat)) (some (s.reg c.toNat)) <;> rfl
    case beq a b c =>
      rw [exec, execBeq, branchIf_of_lt _ hlt]
      by_cases heq : s.reg a.toNat = s.reg b.toNat <;> simp [heq, Write.apply]
    case bne a b c =>
      rw [exec, execBne, branchIf_of_lt _ hlt]
      by_cases heq : s.reg a.toNat = s.reg b.toNat <;> simp [heq, Write.apply]
    case lw a b =>
      obtain ⟨ha, hb⟩ := hlt
      rw [exec, execLw, checkAB_of_lt _ _ ha hb, reg?_of_lt _ _ hb]
      simp only [bind, Except.bind, checkAddr_eq]
      cases dueFault.addrFault s (some (s.reg b.toNat)) <;> rfl
    case sw a b =>
      obtain ⟨ha, hb⟩ := hlt
      rw [exec, execSw, checkAB_of_lt _ _ ha hb, reg?_of_lt _ _ hb]
      simp only [bind, Except.bind, checkAddr_eq]
      cases dueFault.addrFault s (some (s.reg b.toNat)) <;> rfl

/-! What is known of an instruction with no fault due, and of its write. -/

/-- With no fault due, every register field names a register. -/
theorem firstBadReg_of_not_due {i : Instr} {s : State} (h : dueFault i s = none) : firstBadReg s.numRegs i = none := by
  cases hbad : firstBadReg s.numRegs i with
  | none => rfl
  | some p => rw [dueFault_of_badReg hbad] at h; cases h

/-- The register an instruction writes is one of those its fields are checked for. -/
theorem lt_of_writesReg {n : Nat} {i : Instr} {r : Byte} (hgood : firstBadReg n i = none) (h : writesReg i = some r) :
    r.toNat < n := by
  have hused : (RegField.a, r) ∈ usedRegs i := by
    cases i <;> simp_all [writesReg, usedRegs]
  exact lt_of_firstBadReg hgood _ hused

/-- The register a write names is the one R21's table gives the instruction. -/
theorem writesReg_of_writeOf {i : Instr} {s : State} {r : Byte} {v : Word} (h : writeOf i s = .reg r v) :
    writesReg i = some r := by
  cases i
  case beq | bne =>
    simp only [writeOf] at h
    split at h <;> cases h
  case halt | nop | sw | j | jr | unrecognized => cases h
  all_goals cases h; rfl

/-- A write of a data word is a sw's, at the index its field B's register holds. -/
theorem sw_of_writeOf {i : Instr} {s : State} {k : Nat} {v : Word} (h : writeOf i s = .mem k v) :
    ∃ a b, i = .sw a b ∧ k = (s32 (s.reg b.toNat)).toNat := by
  cases i
  case sw a b => cases h; exact ⟨a, b, rfl, rfl⟩
  case beq | bne =>
    simp only [writeOf] at h
    split at h <;> cases h
  all_goals cases h

/-- A sw with no fault due has a valid address. -/
theorem validAddr_of_not_due {s : State} {a b : Byte} (h : dueFault (.sw a b) s = none) :
    s.ValidAddr (s.reg b.toNat) := by
  have hgood := firstBadReg_of_not_due h
  have hb : b.toNat < s.numRegs := lt_of_firstBadReg hgood (.b, b) (by simp [usedRegs])
  simp only [dueFault, hgood, reg?_of_lt s b hb, dueFault.addrFault] at h
  by_contra hv
  rw [if_neg hv] at h
  cases h

/-- A write leaves what was fetched (R98). -/
theorem Write.apply_fetched (wr : Write) (s : State) : (wr.apply s).fetched = s.fetched := by
  cases wr <;> rfl

/-- A write leaves the fault record (R29). -/
theorem Write.apply_fr (wr : Write) (s : State) : (wr.apply s).fr = s.fr := by
  cases wr <;> rfl

end Sys2Proof.Machine
end

section
/-! The facts that the statements of spec/10_state.md rest on: what an effect, a cycle's end and a boot leave in each
part of the state, and the opcode of a decoded word. -/

namespace Sys2Proof.Machine

/-! Effects, field by field. -/

/-- A next state that exec answers is one of the effects. -/
theorem effect_of_exec {i : Instr} {s t : State} (h : exec i s = .next t) : Effect i s t := by
  obtain ⟨u, hu, he⟩ := exec_effect i s
  rw [h] at hu
  cases hu
  exact he

/-- No instruction changes NUM_REGS. -/
theorem exec_numRegs {i : Instr} {s t : State} (h : exec i s = .next t) : t.numRegs = s.numRegs :=
  congrArg Config.Params.numRegs (effect_of_exec h).params

/-- A register that R21's table does not give the instruction to write keeps its value. -/
theorem Effect.reg_of_unwritten {i : Instr} {s t : State} (h : Effect i s t) {r : Nat}
    (hr : ∀ a, writesReg i = some a → a.toNat ≠ r) : t.x[r]? = s.x[r]? := by
  cases h
  case reg a v h hw _ => rw [h]; exact setReg_getElem?_ne s v (fun e => hr a hw e.symm)
  all_goals subst_vars; rfl

/-- An instruction other than sw leaves the data memory. -/
theorem Effect.mem_of_ne_sw {i : Instr} {s t : State} (h : Effect i s t) (hi : ∀ a b, i ≠ .sw a b) : t.mem = s.mem := by
  cases h
  case mem a v h hw _ => obtain ⟨fa, fb, hsw⟩ := hw; exact absurd hsw (hi fa fb)
  all_goals subst_vars; rfl

/-- Only halt changes RUN. -/
theorem Effect.run_of_ne_halt {i : Instr} {s t : State} (h : Effect i s t) (hi : i ≠ .halt) : t.run = s.run := by
  cases h
  case halt h hw => exact absurd hw hi
  all_goals subst_vars; rfl

/-- Every effect keeps the data memory's form: a sw writes below MEM_WORDS (R26). -/
theorem Effect.memWf {i : Instr} {s t : State} (h : Effect i s t) (hs : s.mem.wf) : t.mem.wf := by
  cases h
  case mem a v h _ ha => rw [h]; exact memory_write_wf hs ha v
  all_goals subst_vars; exact hs

/-- An instruction leaves FR, or takes a fault other than FetchOutOfRange and leaves RUN. -/
theorem Effect.fr {i : Instr} {s t : State} (h : Effect i s t) :
    t.fr = s.fr ∨ ∃ e : FaultEvent, e.code ≠ 1 ∧ t.fr = e.record s.fetched s.pc ∧ t.run = s.run := by
  cases h
  case fault e h he => rw [h]; exact .inr ⟨e, he, rfl, rfl⟩
  all_goals subst_vars; exact .inl rfl

/-! Opcodes. -/

/-- The canonical opcode of what a word decodes to is the word's own (R72, R78). -/
theorem opcode_decode (w : InstrWord) : (decode w).fields.opcode = fieldOpcode w := by
  rcases decodeOp_cases (fieldOpcode w) with ⟨h, hop⟩ | ⟨h, hop⟩ | ⟨h, hop⟩ | ⟨h, hop⟩ | ⟨h, hop⟩ | ⟨h, hop⟩ |
    ⟨h, hop⟩ | ⟨h, hop⟩ | ⟨h, hop⟩ | ⟨h, hop⟩ | ⟨h, hop⟩ | ⟨h, hop⟩ | ⟨h, hop⟩ | ⟨h, hop⟩ | ⟨h, hop⟩ | ⟨-, hop⟩
  all_goals simp only [decode, instrOf, fieldsOf, hop, Instr.fields]
  all_goals exact h.symm

/-- A word decodes to halt exactly if its opcode is 0x00 (R110). -/
theorem decode_eq_halt_iff (w : InstrWord) : decode w = .halt ↔ fieldOpcode w = 0x00 := by
  constructor
  · intro h
    rw [← opcode_decode, h]
    rfl
  · intro h
    simp only [decode, instrOf, fieldsOf, h]
    rfl

/-! The fault record and the control state. -/

/-- The record of a fault after the fetch fits R180. -/
theorem record_wf {e : FaultEvent} (he : e.code ≠ 1) (f : Fetched) (pc : Word) : (e.record (some f) pc).wf := by
  have hne : e.code.toNat ≠ 1 := fun h => he (BitVec.eq_of_toNat_eq h)
  obtain ⟨hlow, hhigh⟩ := code_bounds e
  refine .inr (.inr ⟨?_, ?_, rfl⟩) <;> rw [record_cause]
  · omega
  · exact hhigh

theorem control_ne_impossible_of_cause {s : State} (h : s.fr.cause = 0) : s.control ≠ .impossible :=
  fun hc => ((control_impossible_iff s).mp hc).2 h

theorem control_ne_impossible_of_run {s : State} (h : s.run = true) : s.control ≠ .impossible := fun hc => by
  obtain ⟨hrun, -⟩ := (control_impossible_iff s).mp hc
  rw [h] at hrun
  cases hrun

/-! The quotient as bit vectors. -/

/-- The quotient of R133 is the bit vectors' signed division. -/
theorem div32_eq (n d : Word) : div32 n d = BitVec.sdiv n d := by
  rw [← BitVec.toInt_inj, BitVec.toInt_sdiv]
  simp only [div32, bits32, tdiv, s32, BitVec.toInt_ofInt]

/-! The ends of a cycle. -/

@[simp] theorem fetchedState_reg (s : State) (w : InstrWord) (r : Nat) : (fetchedState s w).reg r = s.reg r := rfl
@[simp] theorem fetchedState_reg? (s : State) (w : InstrWord) (r : Byte) : (fetchedState s w).reg? r = s.reg? r := rfl

/-- The end of a cycle that completed (R90, R101). -/
theorem endCycle_of_completed {s : State} {f : Fetched} (hf : s.fetched = some f) (hc : s.fr.cause = 0) :
    s.endCycle = { s with trace := s.trace ++ [traceRecord f s], fetched := none } := by
  simp only [State.endCycle, hf, hc, if_true]

/-- The end of a cycle that took a fault: no trace record (R186). -/
theorem endCycle_of_faulted {s : State} (hc : s.fr.cause ≠ 0) : s.endCycle = { s with fetched := none } := by
  obtain ⟨l, h⟩ := endCycle_shape s
  have htrace : s.endCycle.trace = s.trace := endCycle_trace_of_faulted hc
  rw [h] at htrace
  rw [h, ← htrace]

/-! The boot, and the placement of a word. -/

/-- What a boot answers, if it accepts the program (R210). -/
theorem boot_eq_some {p : Config.Params} {ws : List InstrWord} {t : State} (h : State.boot p ws = some t) :
    ws.length ≤ Config.maxProgramWords ∧ t = { State.resetOf p with prog := ProgramStore.ofWords ws } := by
  unfold State.boot at h
  split at h
  · exact ⟨‹_›, (Option.some.inj h).symm⟩
  · cases h

theorem placeFetchWord_control (s : State) (v : InstrWord) : (s.placeFetchWord v).control = .running :=
  (control_running_iff _).mpr ⟨rfl, rfl⟩

/-- A word placed in the program store is fetched from where it was placed. -/
theorem fetch_place (p : ProgramStore) (i : Nat) (v : InstrWord) : (p.place i v).fetch i = some v := by
  have hlt : i < (p.place i v).length := by
    show i < max p.length (i + 1)
    omega
  rw [ProgramStore.fetch, if_pos hlt]
  simp only [ProgramStore.place, read_write, if_true]

end Sys2Proof.Machine
end

section
/-! The statements of spec/10_state.md. An instruction reads what R21, R25 and R26 give it, so states that agree on that
give it the same outcome; what a step writes, and the invariant it keeps, follow from its effects. -/

namespace Sys2Proof.Machine

/-- The two states agree on everything the instruction reads: the parameters, the registers R21's table gives it, and
for lw the data memory (R26). -/
structure ReadsAgree (i : Instr) (s s' : State) : Prop where
  numRegs : s'.numRegs = s.numRegs
  memWords : s'.memWords = s.memWords
  regs : ∀ b ∈ readsRegs i, s'.reg? b = s.reg? b
  mem : ∀ a b, i = .lw a b → s'.mem = s.mem

/-- The value a register port gives, from what a host reads there (0 where there is no register). -/
theorem reg_eq_getD (s : State) (b : Byte) : s.reg b.toNat = (s.reg? b).getD 0 :=
  List.getD_eq_getElem?_getD

theorem addrFault_congr {s s' : State} (h : s'.memWords = s.memWords) (v : Option Word) :
    dueFault.addrFault s' v = dueFault.addrFault s v := by
  cases v with
  | none => rfl
  | some v => simp only [dueFault.addrFault, State.ValidAddr, h]

/-- The fault due depends on nothing but what the instruction reads. -/
theorem dueFault_congr {i : Instr} {s s' : State} (h : ReadsAgree i s s') : dueFault i s' = dueFault i s := by
  cases hbad : firstBadReg s.numRegs i with
  | some p => rw [dueFault_of_badReg hbad, dueFault_of_badReg (h.numRegs ▸ hbad)]
  | none =>
    have hregs := h.regs
    cases i
    case lw a b | sw a b =>
      simp only [dueFault, h.numRegs, hbad, addrFault_congr h.memWords, hregs b (by simp [readsRegs])]
    case div a b c =>
      simp only [dueFault, h.numRegs, hbad, hregs b (by simp [readsRegs]), hregs c (by simp [readsRegs])]
    all_goals simp only [dueFault, h.numRegs, hbad]

/-- The write asked for depends on nothing but what the instruction reads. -/
theorem writeOf_congr {i : Instr} {s s' : State} (h : ReadsAgree i s s') : writeOf i s' = writeOf i s := by
  have hregs : ∀ b ∈ readsRegs i, s'.reg b.toNat = s.reg b.toNat := fun b hb => by
    rw [reg_eq_getD, reg_eq_getD, h.regs b hb]
  cases i
  case halt | nop | li | j | unrecognized => rfl
  case lw a b => simp only [writeOf, State.memRead, h.mem a b rfl, hregs b (by simp [readsRegs])]
  all_goals
    simp only [readsRegs, List.forall_mem_cons, List.not_mem_nil, IsEmpty.forall_iff, implies_true, and_true] at hregs
    simp only [writeOf, hregs]

/-- States that agree on what the instruction reads: the same fault is taken in both, or the same write is made. -/
theorem exec_of_readsAgree {i : Instr} {s s' t : State} (h : ReadsAgree i s s') (ht : exec i s = .next t) :
    (∃ e, t = s.takeFault e ∧ exec i s' = .next (s'.takeFault e)) ∨
      t = (writeOf i s).apply s ∧ exec i s' = .next ((writeOf i s).apply s') := by
  rw [exec_eq, Host.Outcome.next.injEq] at ht
  rw [exec_eq i s', dueFault_congr h, writeOf_congr h]
  subst ht
  cases dueFault i s with
  | some e => exact .inl ⟨e, rfl, rfl⟩
  | none => exact .inr ⟨rfl, rfl⟩

/-! Another program store (R25). -/

theorem Write.apply_prog (w : Write) (s : State) (p : ProgramStore) :
    w.apply { s with prog := p } = { w.apply s with prog := p } := by
  cases w <;> rfl

theorem exec_withProg {i : Instr} {s t : State} (p : ProgramStore) (h : exec i s = .next t) :
    exec i { s with prog := p } = .next { t with prog := p } := by
  obtain ⟨e, rfl, h'⟩ | ⟨rfl, h'⟩ := exec_of_readsAgree (s := s) (s' := { s with prog := p })
    ⟨rfl, rfl, fun _ _ => rfl, fun _ _ _ => rfl⟩ h
  · exact h'
  · rw [h', Write.apply_prog]

/-! Another data memory of the same size (R26). -/

theorem Write.apply_mem (w : Write) (s : State) (m : Memory) :
    ∃ m', w.apply { s with mem := m } = { w.apply s with mem := m' } := by
  cases w with
  | mem a v => exact ⟨m.write a v, rfl⟩
  | reg r v => exact ⟨m, rfl⟩
  | pc target => exact ⟨m, rfl⟩
  | clearRun => exact ⟨m, rfl⟩
  | nothing => exact ⟨m, rfl⟩

theorem exec_withMem {i : Instr} {s t : State} {m : Memory} (hm : m.size = s.memWords) (hi : ∀ a b, i ≠ .lw a b)
    (h : exec i s = .next t) : ∃ m', exec i { s with mem := m } = .next { t with mem := m' } := by
  obtain ⟨e, rfl, h'⟩ | ⟨rfl, h'⟩ := exec_of_readsAgree (s := s) (s' := { s with mem := m })
    ⟨rfl, hm, fun _ _ => rfl, fun a b e => absurd e (hi a b)⟩ h
  · exact ⟨m, h'⟩
  · obtain ⟨m', hm'⟩ := Write.apply_mem (writeOf i s) s m
    exact ⟨m', by rw [h', hm']⟩

/-! Another value in a register (R21). -/

/-- Writing a register that the write does not name commutes with it; one that it names is overwritten. -/
theorem Write.apply_setReg (w : Write) (s : State) (k : Nat) (v : Word) :
    w.apply (s.setReg k v) = (w.apply s).setReg k v ∨
      (∃ r u, w = .reg r u ∧ r.toNat = k) ∧ w.apply (s.setReg k v) = w.apply s := by
  cases w with
  | reg r u =>
    by_cases hr : r.toNat = k
    · refine .inr ⟨⟨r, u, rfl, hr⟩, ?_⟩
      simp only [Write.apply, State.setReg, hr, List.set_set]
    · refine .inl ?_
      simp only [Write.apply, State.setReg, List.set_comm _ _ (fun e => hr e.symm)]
  | mem a u => exact .inl rfl
  | pc target => exact .inl rfl
  | clearRun => exact .inl rfl
  | nothing => exact .inl rfl

theorem onlyReg_refl (k : Nat) (s : State) : OnlyReg k s s :=
  ⟨fun _ _ => rfl, rfl, fun _ => rfl, ⟨rfl, rfl⟩, rfl, rfl, rfl, rfl⟩

theorem onlyReg_setReg (k : Nat) (v : Word) (s : State) : OnlyReg k s (s.setReg k v) :=
  ⟨fun _ hi => setReg_getElem?_ne s v hi, rfl, fun _ => rfl, ⟨rfl, rfl⟩, setReg_params s k v, rfl, rfl, rfl⟩

/-- With another value in a register the instruction does not read, the outcome is the same but for that value; and if
the instruction writes that register, it is the same altogether. -/
theorem exec_setReg_unread {i : Instr} {s t : State} {k : Nat} (v : Word) (hk : ∀ b ∈ readsRegs i, b.toNat ≠ k)
    (h : exec i s = .next t) :
    exec i (s.setReg k v) = .next (t.setReg k v) ∨
      (∃ a, writesReg i = some a ∧ a.toNat = k) ∧ exec i (s.setReg k v) = .next t := by
  have hagree : ReadsAgree i s (s.setReg k v) :=
    ⟨List.length_set, rfl, fun b hb => setReg_getElem?_ne s v (hk b hb), fun _ _ _ => rfl⟩
  obtain ⟨e, rfl, h'⟩ | ⟨rfl, h'⟩ := exec_of_readsAgree hagree h
  · exact .inl h'
  · obtain hc | ⟨⟨r, u, hw, hr⟩, hc⟩ := Write.apply_setReg (writeOf i s) s k v
    · exact .inl (by rw [h', hc])
    · exact .inr ⟨⟨r, writesReg_of_writeOf hw, hr⟩, by rw [h', hc]⟩

/-! What an instruction and a step use of each piece of state (R21, R25, R26, R28). -/

/-- Settles O40: the registers not written are kept by every effect, and a register not read is either untouched by the
instruction, in which case the new value passes through, or overwritten by it. -/
theorem onlyNamedRegistersAreUsed : Obligations.OnlyNamedRegistersAreUsed := by
  intro i s t h
  refine ⟨fun r => (effect_of_exec h).reg_of_unwritten, fun k v hk hreads => ?_⟩
  obtain h' | ⟨⟨a, ha, hak⟩, h'⟩ := exec_setReg_unread v hreads h
  · exact ⟨_, h', onlyReg_setReg k v t, fun _ => List.getElem?_set_self (lt_of_lt_of_eq hk (exec_numRegs h).symm)⟩
  · exact ⟨_, h', onlyReg_refl k t, fun hunwritten => absurd hak (hunwritten a ha)⟩

theorem step_prog {s t : State} (h : step s = .next t) : t.prog = s.prog := by
  obtain ⟨-, ⟨-, rfl⟩ | ⟨w, u, -, -, heffect, rfl⟩⟩ := step_cases h
  · rfl
  · obtain ⟨-, hprog, -⟩ := heffect.rest
    rw [endCycle_prog, hprog]
    rfl

/-- Settles O41: neither a fetch fault nor an effect writes the program store, and no instruction reads it. -/
theorem onlyFetchReachesTheProgramStore : Obligations.OnlyFetchReachesTheProgramStore :=
  ⟨fun _ _ => step_prog, fun _ _ _ p => exec_withProg p⟩

/-- A step that did not fetch a sw leaves the data memory. -/
theorem step_mem_of_no_sw {s t : State} (h : step s = .next t)
    (hw : ∀ w, s.prog.fetch (u32 s.pc) = some w → fieldOpcode w ≠ 0x04) : t.mem = s.mem := by
  obtain ⟨-, ⟨-, rfl⟩ | ⟨w, u, hfetch, -, heffect, rfl⟩⟩ := step_cases h
  · rfl
  · rw [endCycle_mem, heffect.mem_of_ne_sw]
    · rfl
    · intro a b hsw
      refine hw w hfetch ?_
      rw [← opcode_decode, hsw]
      rfl

/-- Settles O42: the observation port's range check, the one effect that writes a data word, and the reads of an
instruction. -/
theorem onlyLwReadsAndSwWritesMemory : Obligations.OnlyLwReadsAndSwWritesMemory := by
  refine ⟨fun s a => ?_, fun s t h hw a => by rw [step_mem_of_no_sw h hw], fun i s t m hm hi => exec_withMem hm hi⟩
  unfold State.observeMem
  split <;> simp [*]

/-- halt clears RUN. -/
theorem run_of_exec_halt {s t : State} (h : exec .halt s = .next t) : t.run = false := by
  cases h
  rfl

/-- A step clears RUN exactly if it executed halt. -/
theorem step_run_iff {s t : State} (h : step s = .next t) :
    t.run = false ↔ ∃ w, s.prog.fetch (u32 s.pc) = some w ∧ fieldOpcode w = 0x00 := by
  obtain ⟨hrunning, ⟨hnone, rfl⟩ | ⟨w, u, hfetch, hexec, heffect, rfl⟩⟩ := step_cases h
  all_goals obtain ⟨hrun, -⟩ := (control_running_iff s).mp hrunning
  · simp [hnone, hrun]
  · rw [endCycle_run]
    simp only [hfetch, Option.some.injEq, exists_eq_left', ← decode_eq_halt_iff]
    by_cases hhalt : decode w = .halt
    · exact iff_of_true (run_of_exec_halt (hhalt ▸ hexec)) hhalt
    · have : u.run = true := (heffect.run_of_ne_halt hhalt).trans hrun
      simp [this, hhalt]

/-- Settles O39: by the boot's literal value, by the one effect that writes RUN, and because only RUNNING steps. -/
theorem onlyHaltClearsRun : Obligations.OnlyHaltClearsRun := by
  refine ⟨fun p ws t h => ?_, fun s t => step_run_iff, fun s t hrun h => ?_⟩
  · obtain ⟨-, rfl⟩ := boot_eq_some h
    rfl
  · obtain ⟨hrun', -⟩ := (control_running_iff s).mp (step_next_running h)
    rw [hrun] at hrun'
    cases hrun'

/-! Reset, and the placement of a word (R36, R210). -/

/-- Settles O44: with no words the boot's program store is the empty one of reset. -/
theorem resetStateIsBootOfNothing : Obligations.ResetStateIsBootOfNothing := by
  refine ⟨rfl, rfl, rfl, fun p ws t h => ?_⟩
  obtain ⟨-, rfl⟩ := boot_eq_some h
  simp only [State.params, State.numRegs, State.memWords, State.resetOf, List.length_replicate]

/-- A boot has a memory of zeros and the program's words, and is RUNNING (R36). -/
theorem boot_inv {p : Config.Params} {ws : List InstrWord} {t : State} (h : State.boot p ws = some t) : Inv t := by
  obtain ⟨hlen, rfl⟩ := boot_eq_some h
  exact {
    memWf := ⟨⟨.nil, by simp [State.resetOf]⟩, by simp [State.resetOf]⟩
    progWf := ofWords_wf hlen
    controlLegal := control_ne_impossible_of_run rfl
    frWf := .inl rfl
    idle := rfl }

/-- Settles O45: reset is the boot of an empty program, and a boot's cells come from a list of words. -/
theorem bootMeetsInvariant : Obligations.BootMeetsInvariant :=
  ⟨boot_inv resetStateIsBootOfNothing.1, fun _ _ _ => boot_inv⟩

/-- Settles O47: the placement puts the word at the index the pc holds. -/
theorem placedWordIsFetchedNext : Obligations.PlacedWordIsFetchedNext := by
  intro s nbits w i h
  unfold decodeTableWord at h
  split at h
  · exact ⟨_, tableWord nbits w, rfl, placeFetchWord_control s _, fetch_place _ _ _, Option.some.inj h, fun _ => rfl,
      fun _ => rfl, rfl, rfl⟩
  · cases h

/-! The invariant (R26, R30, R35, R180). -/

/-- A fetch fault keeps the invariant (R181). -/
theorem Inv.fetchFault {s : State} (h : Inv s) (hrun : s.run = true) :
    Inv (s.beginCycle.takeFault (.fetchOutOfRange s.pc)) where
  memWf := h.memWf
  progWf := h.progWf
  controlLegal := control_ne_impossible_of_run hrun
  frWf := .inr (.inl ⟨rfl, rfl, rfl, rfl⟩)
  idle := rfl

/-- An instruction executed in RUNNING, and the end of its cycle, keep the invariant. -/
theorem Inv.executed {s u : State} {w : InstrWord} {i : Instr} (h : Inv s) (hrunning : s.control = .running)
    (he : Effect i (fetchedState s w) u) : Inv u.endCycle := by
  obtain ⟨hrun, hcause⟩ := (control_running_iff s).mp hrunning
  obtain ⟨-, hprog, -⟩ := he.rest
  refine { memWf := ?_, progWf := ?_, controlLegal := ?_, frWf := ?_, idle := endCycle_fetched u }
  · rw [endCycle_mem]
    exact he.memWf h.memWf
  · rw [endCycle_prog, hprog]
    exact h.progWf
  · obtain hfr | ⟨e, -, -, hrun'⟩ := he.fr
    · exact control_ne_impossible_of_cause (by rw [endCycle_fr, hfr]; exact hcause)
    · exact control_ne_impossible_of_run (by rw [endCycle_run, hrun']; exact hrun)
  · rw [endCycle_fr]
    obtain hfr | ⟨e, hcode, hfr, -⟩ := he.fr
    · exact hfr ▸ h.frWf
    · exact hfr ▸ record_wf hcode _ _

/-- Settles O46: by the two things a step can do, a fetch fault and an instruction's effect. -/
theorem stepKeepsInvariant : Obligations.StepKeepsInvariant := by
  intro s t h hstep
  obtain ⟨hrunning, ⟨-, rfl⟩ | ⟨w, u, -, -, heffect, rfl⟩⟩ := step_cases hstep
  · obtain ⟨hrun, -⟩ := (control_running_iff s).mp hrunning
    exact h.fetchFault hrun
  · exact h.executed hrunning heffect

end Sys2Proof.Machine
end

section
/-! The cycle composed from the six blocks' ports (spec/10_state.md R40 to R45) is the step: the engine raises the fault
that is due or asks for the instruction's one write, and the control commits what it asks for. -/

namespace Sys2Proof.Machine.Blocks

/-! The ports. -/

theorem readPort_of_lt {s : State} {r : Byte} (h : r.toNat < s.numRegs) :
    readPort s.x r = { rdata := s.reg r.toNat, rvalid := true } := by
  have hsome : s.x[r.toNat]? = some (s.reg r.toNat) := reg?_of_lt s r h
  simp only [readPort, hsome]

theorem readPort_rvalid (x : RegFile) (r : Byte) : (readPort x r).rvalid = decide (r.toNat < x.length) := by
  unfold readPort
  by_cases h : r.toNat < x.length
  · simp only [List.getElem?_eq_getElem h, h, decide_true]
  · simp only [List.getElem?_eq_none (Nat.le_of_not_lt h), h, decide_false]

theorem dataPort_of_valid {m : Memory} {v : Word} (h : 0 ≤ s32 v ∧ s32 v < m.size) :
    dataPort m v = { minRange := true, mrdata := m.read (s32 v).toNat } := if_pos h

theorem dataPort_of_invalid {m : Memory} {v : Word} (h : ¬ (0 ≤ s32 v ∧ s32 v < m.size)) :
    dataPort m v = { minRange := false, mrdata := Config.unspecifiedMemData v } := if_neg h

theorem fetchPort_of_word {p : ProgramStore} {pc : Word} {w : InstrWord} (h : p.fetch (u32 pc) = some w) :
    fetchPort p pc = { fvalid := true, fword := w } := by
  unfold ProgramStore.fetch at h
  split at h
  · cases h
    exact if_pos ‹_›
  · cases h

theorem fetchPort_of_no_word {p : ProgramStore} {pc : Word} (h : p.fetch (u32 pc) = none) :
    (fetchPort p pc).fvalid = false := by
  unfold ProgramStore.fetch at h
  split at h
  · cases h
  · rw [fetchPort, if_neg ‹_›]

/-! The cycle, with what its ports carry. -/

/-- The address the data port gets in a cycle that fetched `w`. -/
def cycleAddr (s : State) (w : InstrWord) : Word := engineAddr (decoder w) (readPort s.x (fieldB w))

/-- The engine's inputs in a cycle that fetched `w`. -/
def cycleInputs (s : State) (w : InstrWord) : EngineIn :=
  { dec := decoder w, r1 := readPort s.x (fieldA w), r2 := readPort s.x (fieldB w), r3 := readPort s.x (fieldC w)
    data := dataPort s.mem (cycleAddr s w), pcInc := nextIndex s.pc }

theorem blockCycle_of_word {s : State} {w : InstrWord} (h : s.prog.fetch (u32 s.pc) = some w) :
    blockCycle s = commit s w (cycleAddr s w) (engine (cycleInputs s w)) := by
  simp only [blockCycle, fetchPort_of_word h]
  rfl

theorem blockCycle_of_no_word {s : State} (h : s.prog.fetch (u32 s.pc) = none) :
    blockCycle s = s.beginCycle.takeFault (.fetchOutOfRange s.pc) := by
  simp only [blockCycle, fetchPort_of_no_word h]
  rfl

/-! The engine's register check. -/

/-- The engine's table of used fields is the instruction's (R75). -/
theorem usedRegs_decode (w : InstrWord) :
    usedRegs (decode w) = (usedFields (decoder w).op).map (fun f => (f, (decoder w).field f)) := by
  simp only [decode, instrOf, decoder, fieldsOf]
  cases decodeOp (fieldOpcode w) <;> rfl

theorem port_rvalid (s : State) (w : InstrWord) (f : RegField) :
    ((cycleInputs s w).port f).rvalid = decide (((decoder w).field f).toNat < s.numRegs) := by
  cases f <;> exact readPort_rvalid s.x _

/-- The engine finds the bad field that `firstBadReg` finds (R96, R182). -/
theorem firstBadReg_eq_badField (s : State) (w : InstrWord) :
    firstBadReg s.numRegs (decode w) =
      (badField (cycleInputs s w)).map (fun f => (f, (decoder w).field f)) := by
  have hpred : ∀ f, (!((cycleInputs s w).port f).rvalid) = decide (s.numRegs ≤ ((decoder w).field f).toNat) := by
    intro f
    rw [port_rvalid, ← decide_not, decide_eq_decide, Nat.not_lt]
  simp only [badField, hpred]
  rw [firstBadReg, usedRegs_decode, List.find?_map]
  rfl

/-! What the engine asks for. -/

/-- The outputs that ask for a write: of a register, of the data word at `maddr`, of the pc or of RUN. -/
def EngineOut.drive (o : EngineOut) : Write → EngineOut
  | .reg r v => o.write r v
  | .mem _ v => o.store v
  | .pc target => o.load target
  | .clearRun => o.halt
  | .nothing => o

/-- The arms of lw and sw: MemAddrOutOfRange is raised exactly if it is due on the address. -/
theorem addressArm_eq (s : State) (v : Word) (write : Word → EngineOut) (raise : FaultEvent → EngineOut) :
    (if (dataPort s.mem v).minRange = true then write (dataPort s.mem v).mrdata else raise (.memAddrOutOfRange v)) =
      (dueFault.addrFault s (some v)).elim (write (s.memRead (s32 v).toNat)) raise := by
  by_cases hv : s.ValidAddr v
  · rw [dataPort_of_valid hv, if_pos rfl, dueFault.addrFault, if_pos hv]
    rfl
  · rw [dataPort_of_invalid hv, if_neg Bool.false_ne_true, dueFault.addrFault, if_neg hv]
    rfl

/-- The arm of div: the divisor faults are raised exactly if they are due. -/
theorem divisorArm_eq (n d : Word) (out : EngineOut) (raise : FaultEvent → EngineOut) :
    (if d = 0 then raise (.divByZero n)
      else if n = 0x80000000 ∧ d = 0xFFFFFFFF then raise (.divOverflow n) else out) =
      (dueFault.divFault (some n) (some d)).elim out raise := by
  rw [dueFault.divFault]
  split
  · rfl
  · split <;> rfl

/-- A read port carries the register that its index names (R41). -/
theorem readPort_rdata {s : State} {r : Byte} (h : r.toNat < s.numRegs) : (readPort s.x r).rdata = s.reg r.toNat := by
  rw [readPort_of_lt h]

/-- The arm of an op whose register fields are all valid: the fault due is raised, and where none is due the
instruction's write is asked for. -/
theorem engineArm_eq {s : State} {w : InstrWord} (hgood : firstBadReg s.numRegs (decode w) = none) :
    engineArm (cycleInputs s w) =
      (dueFault (decode w) (fetchedState s w)).elim
        ((EngineOut.idle (fieldOpcode w)).drive (writeOf (decode w) (fetchedState s w)))
        (EngineOut.idle (fieldOpcode w)).raise := by
  have hlt := lt_of_firstBadReg hgood
  have hgood' : firstBadReg (fetchedState s w).numRegs (decode w) = none := hgood
  cases hop : decodeOp (fieldOpcode w)
  all_goals
    simp only [decode, instrOf, fieldsOf, hop, usedRegs, List.forall_mem_cons, List.not_mem_nil, IsEmpty.forall_iff,
      implies_true, and_true] at hlt hgood'
    simp only [engineArm, cycleInputs, cycleAddr, engineAddr, decoder, decode, instrOf, fieldsOf, hop, dueFault, hgood',
      writeOf, fetchedState_reg, fetchedState_reg?, Option.elim_none]
  case halt | nop | unknown | j | li => rfl
  case lw =>
    obtain ⟨-, hb⟩ := hlt
    rw [readPort_rdata hb, reg?_of_lt _ _ hb]
    exact addressArm_eq s _ ((EngineOut.idle _).write _) _
  case sw =>
    obtain ⟨ha, hb⟩ := hlt
    rw [readPort_rdata ha, readPort_rdata hb, reg?_of_lt _ _ hb]
    exact addressArm_eq s _ (fun _ => (EngineOut.idle _).store _) _
  case add | sub | mult =>
    obtain ⟨-, hb, hc⟩ := hlt
    rw [readPort_rdata hb, readPort_rdata hc]
    simp only [EngineOut.drive, add32_eq, sub32_eq, mul32_eq]
  case div =>
    obtain ⟨-, hb, hc⟩ := hlt
    rw [readPort_rdata hb, readPort_rdata hc, reg?_of_lt _ _ hb, reg?_of_lt _ _ hc, divisorArm_eq, div32_eq]
    rfl
  case jr => rw [readPort_rdata hlt]; rfl
  case beq | bne =>
    obtain ⟨ha, hb, hc⟩ := hlt
    rw [readPort_rdata ha, readPort_rdata hb, readPort_rdata hc]
    by_cases heq : s.reg (fieldA w).toNat = s.reg (fieldB w).toNat <;> simp [heq, EngineOut.drive]
  case inc | dec =>
    rw [readPort_rdata hlt]
    simp only [EngineOut.drive, add32_eq, sub32_eq]

/-- The engine raises the fault due, and where none is due it asks for the instruction's write (R44, R96). -/
theorem engine_eq (s : State) (w : InstrWord) :
    engine (cycleInputs s w) =
      (dueFault (decode w) (fetchedState s w)).elim
        ((EngineOut.idle (fieldOpcode w)).drive (writeOf (decode w) (fetchedState s w)))
        (EngineOut.idle (fieldOpcode w)).raise := by
  have hmatch := firstBadReg_eq_badField s w
  cases hbad : badField (cycleInputs s w) with
  | some f =>
    rw [hbad, Option.map_some] at hmatch
    rw [dueFault_of_badReg (s := fetchedState s w) hmatch]
    simp only [engine, hbad]
    rfl
  | none =>
    rw [hbad, Option.map_none] at hmatch
    rw [← engineArm_eq hmatch]
    simp only [engine, hbad]

/-! What the control commits. -/

/-- Where a write goes is where the ports of this cycle put it: a register there is, the data word that `maddr`
addresses. -/
def FitsPorts (s : State) (maddr : Word) : Write → Prop
  | .reg r _ => r.toNat < s.numRegs
  | .mem a _ => s.ValidAddr maddr ∧ a = (s32 maddr).toNat
  | .pc _ => True
  | .clearRun => True
  | .nothing => True

/-- With a fault the control commits the fault record and the incremented pc alone (R44, R186). -/
theorem commit_raise (s : State) (w : InstrWord) (maddr : Word) (opcode : Byte) (e : FaultEvent) :
    commit s w maddr ((EngineOut.idle opcode).raise e) = ((fetchedState s w).takeFault e).endCycle := by
  have hcause : ((fetchedState s w).takeFault e).fr.cause ≠ 0 := takeFault_cause_ne _ e
  rw [endCycle_of_faulted hcause]
  rfl

/-- Without a fault the control makes the write asked for and strobes the trace record (R97, R101). -/
theorem commit_drive {s : State} {w : InstrWord} {maddr : Word} {opcode : Byte} {wr : Write} (hc : s.fr.cause = 0)
    (hfits : FitsPorts s maddr wr) :
    commit s w maddr ((EngineOut.idle opcode).drive wr) = (wr.apply (fetchedState s w)).endCycle := by
  have hfetched : (wr.apply (fetchedState s w)).fetched = some { pc := s.pc, word := w } := Write.apply_fetched wr _
  have hcause : (wr.apply (fetchedState s w)).fr.cause = 0 := by rw [Write.apply_fr]; exact hc
  rw [endCycle_of_completed hfetched hcause]
  cases wr with
  | reg r v =>
    have hx : writePort s.x true r v = s.x.set r.toNat v := if_pos ⟨rfl, hfits⟩
    simp [commit, EngineOut.drive, EngineOut.write, EngineOut.idle, hx, dataWrite, Write.apply, fetchedState,
      State.setReg, traceRecord, PcCommand.apply]
  | mem a v =>
    obtain ⟨hvalid, rfl⟩ := hfits
    have hm : dataWrite s.mem maddr true v = s.mem.write (s32 maddr).toNat v :=
      if_pos ⟨rfl, by rw [dataPort_of_valid hvalid]⟩
    simp [commit, EngineOut.drive, EngineOut.store, EngineOut.idle, hm, writePort, Write.apply, fetchedState,
      State.memWrite, traceRecord, PcCommand.apply]
  | pc target =>
    simp [commit, EngineOut.drive, EngineOut.load, EngineOut.idle, writePort, dataWrite, Write.apply, fetchedState,
      State.setPc, traceRecord, PcCommand.apply]
  | clearRun =>
    simp [commit, EngineOut.drive, EngineOut.halt, EngineOut.idle, writePort, dataWrite, Write.apply, fetchedState,
      State.clearRun, traceRecord, PcCommand.apply]
  | nothing =>
    simp [commit, EngineOut.drive, EngineOut.idle, writePort, dataWrite, Write.apply, fetchedState,
      traceRecord, PcCommand.apply]

/-- The data port's address in a cycle that fetched a sw is the register of field B (R27). -/
theorem cycleAddr_of_sw {s : State} {w : InstrWord} {a b : Byte} (h : decode w = .sw a b) (hb : b.toNat < s.numRegs) :
    cycleAddr s w = s.reg b.toNat := by
  simp only [decode, instrOf, fieldsOf] at h
  cases hop : decodeOp (fieldOpcode w) <;> simp only [hop] at h <;> cases h
  simp only [cycleAddr, engineAddr, decoder, hop, readPort_rdata hb]

/-- An instruction with no fault due writes where the ports put it. -/
theorem writeOf_fitsPorts {s : State} {w : InstrWord} (h : dueFault (decode w) (fetchedState s w) = none) :
    FitsPorts s (cycleAddr s w) (writeOf (decode w) (fetchedState s w)) := by
  have hgood := firstBadReg_of_not_due h
  cases hwr : writeOf (decode w) (fetchedState s w) with
  | reg r v => exact lt_of_writesReg hgood (writesReg_of_writeOf hwr)
  | mem k v =>
    obtain ⟨a, b, hi, rfl⟩ := sw_of_writeOf hwr
    rw [hi] at h hgood
    have hb : b.toNat < s.numRegs := lt_of_firstBadReg hgood (.b, b) (by simp [usedRegs])
    have hvalid : s.ValidAddr (s.reg b.toNat) := validAddr_of_not_due (s := fetchedState s w) h
    rw [FitsPorts, cycleAddr_of_sw hi hb]
    exact ⟨hvalid, rfl⟩
  | pc target => trivial
  | clearRun => trivial
  | nothing => trivial

/-- Settles O48: the fetch port's fault is the fetch's, and of a word fetched the engine and the control make the fault
or the write that exec makes. -/
theorem blocksComposeToTheStep : Obligations.BlocksComposeToTheStep := by
  intro s hrunning
  obtain ⟨-, hcause⟩ := (control_running_iff s).mp hrunning
  rw [step_running hrunning]
  cases hw : s.prog.fetch (u32 s.pc) with
  | none => rw [cycle_of_no_word hw, blockCycle_of_no_word hw]
  | some w =>
    rw [cycle_of_word hw (exec_eq (decode w) (fetchedState s w)), blockCycle_of_word hw, engine_eq]
    cases hdue : dueFault (decode w) (fetchedState s w) with
    | some e => exact congrArg _ (commit_raise s w _ _ e).symm
    | none => exact congrArg _ (commit_drive hcause (writeOf_fitsPorts hdue)).symm

end Sys2Proof.Machine.Blocks
end

section
/-! The statement of spec/20_memory.md: what a lw and a sw with a valid address answer, and the load after the store. -/

namespace Sys2Proof.Machine

/-- A lw with a valid address writes the data word there to its register (R121). -/
theorem exec_lw_of_valid {a b : Byte} {s : State} {v : Word} (ha : a.toNat < s.numRegs) (hb : s.reg? b = some v)
    (hv : s.ValidAddr v) : exec (.lw a b) s = .next (s.setReg a.toNat (s.mem.read (s32 v).toNat)) := by
  obtain ⟨hlt, rfl⟩ := reg?_eq_some hb
  simp only [exec, execLw, checkAB_of_lt a b ha hlt, bind, Except.bind, checkAddr_of_valid _ hv]
  rfl

/-- A sw with a valid address writes its register to the data word there (R122). -/
theorem exec_sw_of_valid {a b : Byte} {s : State} {u v : Word} (ha : s.reg? a = some u) (hb : s.reg? b = some v)
    (hv : s.ValidAddr v) : exec (.sw a b) s = .next (s.memWrite (s32 v).toNat u) := by
  obtain ⟨hlta, rfl⟩ := reg?_eq_some ha
  obtain ⟨hltb, rfl⟩ := reg?_eq_some hb
  simp only [exec, execSw, checkAB_of_lt a b hlta hltb, bind, Except.bind, checkAddr_of_valid _ hv]
  rfl

/-- Valid addresses of one index are one pattern (R27). -/
theorem index_inj_of_valid {s : State} {v z : Word} (hv : s.ValidAddr v) (hz : s.ValidAddr z) :
    (s32 z).toNat = (s32 v).toNat ↔ z = v := by
  obtain ⟨hv0, -⟩ := hv
  obtain ⟨hz0, -⟩ := hz
  rw [← s32_inj]
  omega

/-- Settles O23: the sw leaves the registers and MEM_WORDS, so the lw's address is the one read before the store, and it
reads the memory after one write. -/
theorem loadReadsTheLastStore : Obligations.LoadReadsTheLastStore := by
  intro a b c d s t u v z ha hb hd hc hv hz hsw
  rw [exec_sw_of_valid ha hb hv] at hsw
  cases hsw
  refine ⟨_, exec_lw_of_valid (s := s.memWrite (s32 v).toNat u) hc hd hz, ?_⟩
  rw [reg?_setReg (s.memWrite (s32 v).toNat u) hc, if_pos rfl, memWrite_mem, mem_read_write]
  simp only [index_inj_of_valid hv hz]

end Sys2Proof.Machine
end

section
/-! The statements of spec/30_encoding.md on the decoder and the encoder: decoding undoes encoding, encoding what a word
decodes to keeps the bits its opcode uses, and the layout of R70 as a number. -/

namespace Sys2Proof.Machine

/-! Decode after encode. -/

/-- The canonical fields of a well-formed instruction read back as that instruction. -/
theorem instrOf_fields {i : Instr} (h : i.wf = true) : instrOf i.fields = i := by
  cases i with
  | unrecognized opcode => exact Laws.EncodeOpcode.unrecognized opcode h
  | _ => rfl

theorem decode_encode {i : Instr} (h : i.wf = true) : decode (encode i) = i := by
  rw [encode, decode_word, instrOf_fields h]

/-- Settles O2: the canonical word has the canonical fields, and those read back as the instruction. -/
theorem decodeOfEncode : Obligations.DecodeOfEncode := fun _ => decode_encode

/-! The opcodes that no row of R78 has. -/

theorem decodeOp_eq_unknown_iff (opcode : Byte) : decodeOp opcode = .unknown ↔ 0x0F ≤ opcode.toNat := by
  revert opcode
  decide

/-- Every word decodes to a well-formed instruction (R81). -/
theorem decode_wf (w : InstrWord) : (decode w).wf = true := by
  unfold decode instrOf
  cases hop : decodeOp (fieldsOf w).opcode with
  | unknown => exact decide_eq_true ((decodeOp_eq_unknown_iff _).mp hop)
  | _ => rfl

/-- The unrecognized opcodes are those from 0x0F on (R79). -/
theorem decode_eq_unrecognized_iff (w : InstrWord) :
    decode w = .unrecognized (fieldOpcode w) ↔ 0x0F ≤ (fieldOpcode w).toNat := by
  constructor
  · intro h
    have hwf := decode_wf w
    rw [h] at hwf
    exact of_decide_eq_true hwf
  · intro h
    simp only [decode, instrOf, fieldsOf, (decodeOp_eq_unknown_iff _).mpr h]

/-- Settles O6: decoding answers the unrecognized instruction for the opcodes of UNKNOWN only, which are those from
0x0F on. -/
theorem everyWordDecodes : Obligations.EveryWordDecodes :=
  fun w => ⟨decode_wf w, (decode_eq_unrecognized_iff w).symm⟩

/-- Settles O5: the rows of R78 by evaluation, the opcodes of no row by the characterization of UNKNOWN. -/
theorem opcodeMapOfDecoder : Obligations.OpcodeMapOfDecoder :=
  ⟨rfl, rfl, rfl, rfl, rfl, rfl, rfl, rfl, rfl, rfl, rfl, rfl, rfl, rfl, rfl,
    fun opcode => (decodeOp_eq_unknown_iff opcode).mpr⟩

/-- Settles O7: the words are closed terms, so decoding evaluates. -/
theorem wordsOfTheSpecDecode : Obligations.WordsOfTheSpecDecode := by
  unfold Obligations.WordsOfTheSpecDecode
  decide

/-! Encode after decode. -/

/-- Fields with the bits cleared that a mask does not have. -/
def maskFields (f mask : Fields) : Fields :=
  ⟨f.opcode &&& mask.opcode, f.a &&& mask.a, f.b &&& mask.b, f.c &&& mask.c, f.imm &&& mask.imm⟩

/-- The canonical fields of what fields read as are those their opcode uses, the others 0 (R75, R77). -/
theorem fields_instrOf (f : Fields) : (instrOf f).fields = maskFields f (usedMask (decodeOp f.opcode)) := by
  have hopcode : (instrOf f).fields.opcode = f.opcode := by
    rw [← decode_word, opcode_decode, fieldOpcode_word]
  unfold instrOf at hopcode ⊢
  cases hop : decodeOp f.opcode with
  | unknown => simp only [Instr.fields, maskFields, usedMask, and_ones8, and_zeros]
  | _ =>
    simp only [hop, Instr.fields] at hopcode
    simp only [Instr.fields, maskFields, usedMask, and_ones8, and_ones32, and_zeros, ← hopcode]

theorem encode_decode (w : InstrWord) : encode (decode w) = w &&& usedBits (decodeOp (fieldOpcode w)) := by
  calc encode (decode w) = (maskFields (fieldsOf w) (usedMask (decodeOp (fieldOpcode w)))).word :=
        congrArg Fields.word (fields_instrOf (fieldsOf w))
    _ = (fieldsOf w).word &&& usedBits (decodeOp (fieldOpcode w)) := (word_and _ _).symm
    _ = w &&& usedBits (decodeOp (fieldOpcode w)) := by rw [word_fieldsOf]

/-- Settles O3: the canonical fields are the masked ones, and what a word decodes to is well formed. -/
theorem encodeOfDecodeIsCanonical : Obligations.EncodeOfDecodeIsCanonical :=
  fun w => ⟨encode_decode w, decode_encode (decode_wf w)⟩

/-- Settles O4: the used bits hold the opcode, so both words are masked alike, and decode to one canonical word's
instruction. -/
theorem unusedFieldsAreIgnored : Obligations.UnusedFieldsAreIgnored := by
  intro w v h
  have hopcode : fieldOpcode w = fieldOpcode v := by
    rw [← fieldOpcode_and_usedBits w, h, fieldOpcode_and_usedBits]
  have hdecode : decode w = decode v := by
    rw [← decode_encode (decode_wf w), encode_decode, h, hopcode, ← encode_decode, decode_encode (decode_wf v)]
  exact ⟨hdecode, fun s => by rw [hdecode]⟩

/-! The layout as a number (R70). -/

/-- Appending words shifts the upper one past the lower. -/
theorem toNat_append_eq_add {m n : Nat} (x : BitVec m) (y : BitVec n) :
    (x ++ y).toNat = x.toNat * 2 ^ n + y.toNat := by
  rw [BitVec.toNat_append, ← Nat.shiftLeft_add_eq_or_of_lt y.isLt, Nat.shiftLeft_eq]

/-- A word made of fields is the number that R70's layout gives. -/
theorem word_eq_asmWord (f : Fields) : f.word = asmWord f.opcode.toNat f.a.toNat f.b.toNat f.c.toNat f.imm := by
  apply BitVec.eq_of_toNat_eq
  have hlt := f.word.isLt
  simp only [Fields.word, toNat_append_eq_add] at hlt ⊢
  rw [asmWord, BitVec.toNat_ofNat]
  omega

/-- Settles O1: the number is the word made of the fields, which has those fields. -/
theorem fieldsOfWordByLayout : Obligations.FieldsOfWordByLayout := by
  intro opcode a b c imm
  have hword := word_eq_asmWord ⟨opcode, a, b, c, imm⟩
  exact ⟨(congrArg fieldsOf hword).symm.trans (fieldsOf_word _), hword⟩

end Sys2Proof.Machine
end

section
/-! A cycle always answers (spec/30_encoding.md R81; spec/60_exceptions.md R186). -/

namespace Sys2Proof.Machine

/-- Settles O10: a cycle with no word takes the fetch fault, and every instruction that a word decodes to answers a next
state. -/
theorem runningAlwaysSteps : Obligations.RunningAlwaysSteps := by
  intro s hrunning
  rw [step_running hrunning]
  cases hw : s.prog.fetch (u32 s.pc) with
  | none => exact ⟨_, cycle_of_no_word hw⟩
  | some w => exact ⟨_, cycle_of_word hw (exec_eq (decode w) (fetchedState s w))⟩

end Sys2Proof.Machine
end

section
/-! The statements on the assembler (spec/30_encoding.md R85 to R87): what an operand encodes, the instruction a
statement encodes, and the index a label stands for. -/

namespace Sys2Proof.Machine.Assembler

/-! Operands (R85). -/

theorem asmReg_eq_some_iff {numRegs n : Nat} {k : Byte} :
    asmReg numRegs n = some k ↔ RegOperand numRegs n ∧ BitVec.ofNat 8 n = k := by
  simp only [asmReg, Option.ite_none_right_eq_some, Option.some.injEq]

theorem asmReg_eq_none_iff {numRegs n : Nat} : asmReg numRegs n = none ↔ numRegs ≤ n ∨ 256 ≤ n := by
  simp only [asmReg, ite_eq_right_iff, reduceCtorEq, imp_false]
  omega

/-- An accepted register number is what its field holds. -/
theorem toNat_of_regOperand {numRegs n : Nat} (h : RegOperand numRegs n) : (BitVec.ofNat 8 n).toNat = n := by
  obtain ⟨-, hlt⟩ := h
  exact Nat.mod_eq_of_lt hlt

theorem asmNum_eq_some_iff {n : Int} {v : Word} :
    asmNum n = some v ↔ (-(2 ^ 31) ≤ n ∧ n < 2 ^ 32) ∧ bits32 n = v := by
  simp only [asmNum, bits32, Option.ite_none_right_eq_some, Option.some.injEq]

theorem asmNum_eq_none_iff {n : Int} : asmNum n = none ↔ n < -2 ^ 31 ∨ 2 ^ 32 ≤ n := by
  simp only [asmNum, ite_eq_right_iff, reduceCtorEq, imp_false]
  omega

/-- Settles O50: each operand is refused outside its range, and inside it the field holds the number. -/
theorem assemblerOperandRanges : Obligations.AssemblerOperandRanges := by
  refine ⟨fun _ _ => asmReg_eq_none_iff, fun numRegs n k h => ?_, fun labels n => ⟨asmNum_eq_none_iff, fun v h => ?_⟩⟩
  · obtain ⟨hoperand, rfl⟩ := asmReg_eq_some_iff.mp h
    exact toNat_of_regOperand hoperand
  · obtain ⟨-, rfl⟩ := asmNum_eq_some_iff.mp h
    rfl

/-! Register forms (R75, R85): they assemble exactly when their register numbers do. -/

section
variable {n a b c : Nat} {w : InstrWord}

theorem asmReg1_eq_some_iff {f : Byte → Instr} :
    asmReg1 n a f = some w ↔ RegOperand n a ∧ encode (f (BitVec.ofNat 8 a)) = w := by
  simp [asmReg1, asmReg_eq_some_iff, and_assoc]

theorem asmReg2_eq_some_iff {f : Byte → Byte → Instr} :
    asmReg2 n a b f = some w ↔
      RegOperand n a ∧ RegOperand n b ∧ encode (f (BitVec.ofNat 8 a) (BitVec.ofNat 8 b)) = w := by
  simp [asmReg2, Option.bind_eq_some_iff, asmReg_eq_some_iff, and_assoc]

theorem asmReg3_eq_some_iff {f : Byte → Byte → Byte → Instr} :
    asmReg3 n a b c f = some w ↔
      RegOperand n a ∧ RegOperand n b ∧ RegOperand n c ∧
        encode (f (BitVec.ofNat 8 a) (BitVec.ofNat 8 b) (BitVec.ofNat 8 c)) = w := by
  simp [asmReg3, Option.bind_eq_some_iff, asmReg_eq_some_iff, and_assoc]
end

/-! Canonical words. -/

/-- What a statement other than `.word` encodes: a recognized instruction whose register fields name registers. -/
structure Accepted (n : Nat) (i : Instr) : Prop where
  recognized : ∀ opcode, i ≠ .unrecognized opcode
  regs : ∀ p ∈ usedRegs i, p.2.toNat < n

theorem Accepted.wf {n : Nat} {i : Instr} (h : Accepted n i) : i.wf = true := by
  cases i with
  | unrecognized opcode => exact absurd rfl (h.recognized opcode)
  | _ => rfl

theorem Accepted.firstBadReg_eq_none {n : Nat} {i : Instr} (h : Accepted n i) : firstBadReg n i = none :=
  List.find?_eq_none.mpr fun p hp => by simpa using h.regs p hp

/-- The word of a recognized instruction has a recognized opcode (R79). -/
theorem Accepted.fieldOpcode_encode_le {n : Nat} {i : Instr} (h : Accepted n i) : fieldOpcode (encode i) ≤ 0x0E := by
  by_contra hlt
  have hge : 0x0F ≤ (fieldOpcode (encode i)).toNat := Nat.lt_of_not_le hlt
  have hdecode := (decode_eq_unrecognized_iff (encode i)).mpr hge
  rw [decode_encode h.wf] at hdecode
  exact h.recognized _ hdecode

section
variable {n : Nat} {w : InstrWord}

theorem accepted_of_asmReg1 {a : Nat} {f : Byte → Instr} (h : asmReg1 n a f = some w)
    (hf : ∀ ra opcode, f ra ≠ .unrecognized opcode) (hregs : ∀ ra, usedRegs (f ra) = [(.a, ra)]) :
    ∃ i, w = encode i ∧ Accepted n i := by
  obtain ⟨ha, rfl⟩ := asmReg1_eq_some_iff.mp h
  refine ⟨_, rfl, hf _, ?_⟩
  simp [hregs, toNat_of_regOperand ha, ha.1]

theorem accepted_of_asmReg2 {a b : Nat} {f : Byte → Byte → Instr} (h : asmReg2 n a b f = some w)
    (hf : ∀ ra rb opcode, f ra rb ≠ .unrecognized opcode) (hregs : ∀ ra rb, usedRegs (f ra rb) = [(.a, ra), (.b, rb)]) :
    ∃ i, w = encode i ∧ Accepted n i := by
  obtain ⟨ha, hb, rfl⟩ := asmReg2_eq_some_iff.mp h
  refine ⟨_, rfl, hf _ _, ?_⟩
  simp [hregs, toNat_of_regOperand ha, ha.1, toNat_of_regOperand hb, hb.1]

theorem accepted_of_asmReg3 {a b c : Nat} {f : Byte → Byte → Byte → Instr} (h : asmReg3 n a b c f = some w)
    (hf : ∀ ra rb rc opcode, f ra rb rc ≠ .unrecognized opcode)
    (hregs : ∀ ra rb rc, usedRegs (f ra rb rc) = [(.a, ra), (.b, rb), (.c, rc)]) :
    ∃ i, w = encode i ∧ Accepted n i := by
  obtain ⟨ha, hb, hc, rfl⟩ := asmReg3_eq_some_iff.mp h
  refine ⟨_, rfl, hf _ _ _, ?_⟩
  simp [hregs, toNat_of_regOperand ha, ha.1, toNat_of_regOperand hb, hb.1, toNat_of_regOperand hc, hc.1]

end

/-- A statement other than `.word` assembles to the word of an accepted instruction. -/
theorem assembleStmt_accepted {n : Nat} {labels : List (List Char × Nat)} {st : Stmt} {w : InstrWord}
    (hst : ∀ v, st ≠ .word v) (h : assembleStmt n labels st = some w) : ∃ i, w = encode i ∧ Accepted n i := by
  cases st with
  | word v => exact absurd rfl (hst v)
  | halt => exact ⟨.halt, (Option.some.inj h).symm, nofun, nofun⟩
  | nop => exact ⟨.nop, (Option.some.inj h).symm, nofun, nofun⟩
  | j imm =>
    obtain ⟨v, -, rfl⟩ := Option.map_eq_some_iff.mp h
    exact ⟨.j v, rfl, nofun, nofun⟩
  | li a imm =>
    obtain ⟨v, -, hv⟩ := Option.bind_eq_some_iff.mp h
    exact accepted_of_asmReg1 hv nofun (fun _ => rfl)
  | jr | inc | dec => exact accepted_of_asmReg1 h nofun (fun _ => rfl)
  | lw | sw => exact accepted_of_asmReg2 h nofun (fun _ _ => rfl)
  | _ => exact accepted_of_asmReg3 h nofun (fun _ _ _ => rfl)

/-- Settles O49: decoding the word of an accepted instruction gives it back, and its fields are canonical. -/
theorem assembledWordsAreCanonical : Obligations.AssembledWordsAreCanonical := by
  intro n labels st
  refine ⟨fun v hst => by rw [hst]; rfl, fun w hst h => ?_⟩
  obtain ⟨i, rfl, haccepted⟩ := assembleStmt_accepted hst h
  rw [decode_encode haccepted.wf]
  exact ⟨rfl, haccepted.firstBadReg_eq_none, haccepted.fieldOpcode_encode_le⟩

/-! The rows of R86. -/

section
variable {n a b c : Nat} {w : InstrWord}

/-- The word of a row's operands, by R70's layout as a number. -/
theorem encode_eq_asmWord {i : Instr} {opcode ra rb rc : Byte} {imm : Word} (hi : i.fields = ⟨opcode, ra, rb, rc, imm⟩) :
    encode i = asmWord opcode.toNat ra.toNat rb.toNat rc.toNat imm := by
  rw [encode, hi, word_eq_asmWord]

theorem asmReg1_eq_asmWord {f : Byte → Instr} (opcode : Byte) (imm : Word)
    (hf : ∀ ra, (f ra).fields = ⟨opcode, ra, 0, 0, imm⟩) :
    asmReg1 n a f = some w ↔ RegOperand n a ∧ w = asmWord opcode.toNat a 0 0 imm := by
  rw [asmReg1_eq_some_iff, encode_eq_asmWord (hf _), eq_comm (a := w)]
  refine and_congr_right fun ha => ?_
  rw [toNat_of_regOperand ha]
  rfl

theorem asmReg2_eq_asmWord {f : Byte → Byte → Instr} (opcode : Byte)
    (hf : ∀ ra rb, (f ra rb).fields = ⟨opcode, ra, rb, 0, 0⟩) :
    asmReg2 n a b f = some w ↔ RegOperand n a ∧ RegOperand n b ∧ w = asmWord opcode.toNat a b 0 0 := by
  rw [asmReg2_eq_some_iff, encode_eq_asmWord (hf _ _), eq_comm (a := w)]
  refine and_congr_right fun ha => and_congr_right fun hb => ?_
  rw [toNat_of_regOperand ha, toNat_of_regOperand hb]
  rfl

theorem asmReg3_eq_asmWord {f : Byte → Byte → Byte → Instr} (opcode : Byte)
    (hf : ∀ ra rb rc, (f ra rb rc).fields = ⟨opcode, ra, rb, rc, 0⟩) :
    asmReg3 n a b c f = some w ↔
      RegOperand n a ∧ RegOperand n b ∧ RegOperand n c ∧ w = asmWord opcode.toNat a b c 0 := by
  rw [asmReg3_eq_some_iff, encode_eq_asmWord (hf _ _ _), eq_comm (a := w)]
  refine and_congr_right fun ha => and_congr_right fun hb => and_congr_right fun hc => ?_
  rw [toNat_of_regOperand ha, toNat_of_regOperand hb, toNat_of_regOperand hc]

end

theorem assembleStmt_li {n a : Nat} {labels : List (List Char × Nat)} {imm : Imm} {w : InstrWord} :
    assembleStmt n labels (.li a imm) = some w ↔
      ∃ v, asmImm labels imm = some v ∧ RegOperand n a ∧ w = asmWord 0x02 a 0 0 v := by
  rw [assembleStmt, Option.bind_eq_some_iff]
  exact exists_congr fun v => and_congr_right fun _ => asmReg1_eq_asmWord 0x02 v fun _ => rfl

theorem assembleStmt_j {n : Nat} {labels : List (List Char × Nat)} {imm : Imm} {w : InstrWord} :
    assembleStmt n labels (.j imm) = some w ↔ ∃ v, asmImm labels imm = some v ∧ w = asmWord 0x09 0 0 0 v := by
  rw [assembleStmt, Option.map_eq_some_iff]
  refine exists_congr fun v => and_congr_right fun _ => ?_
  rw [encode_eq_asmWord (i := .j v) rfl, eq_comm]
  rfl

/-- Settles O54: each row's form assembles exactly when its operands do, to the number of its fields. -/
theorem assembledWordsOfEachMnemonic : Obligations.AssembledWordsOfEachMnemonic := by
  intro n labels w
  have hsome : ∀ v : InstrWord, some v = some w ↔ w = v := fun v => by rw [Option.some.injEq, eq_comm]
  exact ⟨hsome _, hsome _, fun _ _ => assembleStmt_li,
    fun _ _ => asmReg2_eq_asmWord 0x03 fun _ _ => rfl, fun _ _ => asmReg2_eq_asmWord 0x04 fun _ _ => rfl,
    fun _ _ _ => asmReg3_eq_asmWord 0x05 fun _ _ _ => rfl, fun _ _ _ => asmReg3_eq_asmWord 0x06 fun _ _ _ => rfl,
    fun _ _ _ => asmReg3_eq_asmWord 0x07 fun _ _ _ => rfl, fun _ _ _ => asmReg3_eq_asmWord 0x08 fun _ _ _ => rfl,
    fun _ => assembleStmt_j, fun _ => asmReg1_eq_asmWord 0x0A 0 fun _ => rfl,
    fun _ _ _ => asmReg3_eq_asmWord 0x0B fun _ _ _ => rfl, fun _ _ _ => asmReg3_eq_asmWord 0x0C fun _ _ _ => rfl,
    fun _ => asmReg1_eq_asmWord 0x0D 0 fun _ => rfl, fun _ => asmReg1_eq_asmWord 0x0E 0 fun _ => rfl, hsome⟩

/-! Labels (R87). -/

/-- The labels of lines after others count on from the instructions of those. -/
theorem labelsFrom_append (before after : List Line) (i : Nat) :
    labelsFrom i (before ++ after) =
      labelsFrom i before ++ labelsFrom (i + (before.filterMap Line.stmt).length) after := by
  induction before generalizing i with
  | nil => rfl
  | cons l rest ih =>
    obtain ⟨label, stmt⟩ := l
    cases label <;> cases stmt <;> simp [labelsFrom, ih, Nat.add_assoc, Nat.add_comm 1]

/-- A label's line declares it for the number of instructions before the line. -/
theorem mem_labelsFrom (before after : List Line) (name : List Char) (st : Option Stmt) :
    (name, (before.filterMap Line.stmt).length) ∈
      labelsFrom 0 (before ++ { label := some name, stmt := st } :: after) := by
  rw [labelsFrom_append, Nat.zero_add]
  exact List.mem_append_right _ List.mem_cons_self

/-- A label that is declared once stands for what it is declared for. -/
theorem lookup_of_nodup {labels : List (List Char × Nat)} {name : List Char} {k : Nat}
    (hnodup : (labels.map Prod.fst).Nodup) (hmem : (name, k) ∈ labels) : lookup labels name = some k := by
  cases hfind : labels.find? (fun p => p.1 == name) with
  | none => exact absurd (List.find?_eq_none.mp hfind _ hmem) (by simp)
  | some p =>
    have hname : p.1 = name := by simpa using List.find?_some hfind
    have hp : p = (name, k) := List.inj_on_of_nodup_map hnodup (List.mem_of_find?_eq_some hfind) hmem hname
    rw [lookup, hfind, hp]
    rfl

/-- An index assembles exactly if a word of 32 bits holds it. -/
theorem asmNum_natCast_eq_some_iff {k : Nat} {v : Word} : asmNum k = some v ↔ k < 2 ^ 32 ∧ v = bits32 k := by
  rw [asmNum_eq_some_iff, eq_comm (a := v)]
  refine and_congr_left fun _ => ?_
  omega

/-- Settles O55: the label is in the table with the number of instructions before its line, and is there once. -/
theorem labelsStandForProgramIndices : Obligations.LabelsStandForProgramIndices := by
  intro before after name st hnodup v
  rw [asmImm, lookup_of_nodup hnodup (mem_labelsFrom before after name st), Option.bind_some]
  exact asmNum_natCast_eq_some_iff

end Sys2Proof.Machine.Assembler
end

section
/-! What a cycle and a run do, said once: how a cycle that fetched a word ends, the trace a step leaves, and the first
step of a run. -/

namespace Sys2Proof.Machine

/-! The fetch, and the end of the cycle. -/

theorem fetch_eq_none_iff {p : ProgramStore} {i : Nat} : p.fetch i = none ↔ p.length ≤ i := by
  simp only [ProgramStore.fetch, ite_eq_right_iff, reduceCtorEq, imp_false, Nat.not_lt]

/-- The state an instruction executes in, with the incremented pc as a sum (R13, R93). -/
theorem fetchedState_eq (s : State) (w : InstrWord) :
    fetchedState s w = { s with pc := s.pc + 1, fetched := some { pc := s.pc, word := w } } := by
  rw [fetchedState, nextIndex_eq]

/-- The end of a cycle that fetched a word: its trace record if it completed, none if it took a fault (R90, R101). -/
theorem endCycle_of_fetched {s : State} {f : Fetched} (hf : s.fetched = some f) :
    s.endCycle =
      if s.fr.cause = 0 then { s with fetched := none, trace := s.trace ++ [traceRecord f s] }
      else { s with fetched := none } := by
  split
  · exact endCycle_of_completed hf ‹_›
  · exact endCycle_of_faulted ‹_›

/-- An instruction leaves the latch as the fetch set it. -/
theorem Effect.fetched_of_fetchedState {i : Instr} {s u : State} {w : InstrWord} (h : Effect i (fetchedState s w) u) :
    u.fetched = some { pc := s.pc, word := w } := by
  obtain ⟨hfetched, -, -⟩ := h.rest
  exact hfetched

/-- A step whose fetch answers a word executes what it decodes to, and ends the cycle. -/
theorem step_of_word {s t : State} {w : InstrWord} (hfetch : s.prog.fetch (u32 s.pc) = some w)
    (h : step s = .next t) :
    ∃ u, exec (decode w) (fetchedState s w) = .next u ∧ Effect (decode w) (fetchedState s w) u ∧ t = u.endCycle := by
  obtain ⟨-, ⟨hnone, -⟩ | ⟨w', u, hfetch', hexec, heffect, rfl⟩⟩ := step_cases h
  · rw [hfetch] at hnone
    cases hnone
  · obtain rfl : w = w' := Option.some.inj (hfetch.symm.trans hfetch')
    exact ⟨u, hexec, heffect, rfl⟩

/-! The trace of a step (R101). -/

/-- A completed cycle fetched a word and emitted its record. -/
theorem step_trace_of_completed {s t : State} (h : step s = .next t) (hc : t.fr.cause = 0) :
    ∃ w, s.prog.fetch (u32 s.pc) = some w ∧ t.trace = s.trace ++ [traceRecord { pc := s.pc, word := w } t] := by
  obtain ⟨-, ⟨-, rfl⟩ | ⟨w, u, hfetch, -, heffect, rfl⟩⟩ := step_cases h
  · exact absurd hc (takeFault_cause_ne _ _)
  · obtain ⟨-, -, htrace⟩ := heffect.rest
    rw [endCycle_fr] at hc
    refine ⟨w, hfetch, ?_⟩
    rw [endCycle_trace_of_completed heffect.fetched_of_fetchedState hc, htrace]
    simp only [traceRecord, endCycle_pc, endCycle_x]
    rfl

/-- A faulting cycle emitted nothing. -/
theorem step_trace_of_faulted {s t : State} (h : step s = .next t) (hc : t.fr.cause ≠ 0) : t.trace = s.trace := by
  obtain ⟨-, ⟨-, rfl⟩ | ⟨w, u, -, -, heffect, rfl⟩⟩ := step_cases h
  · rfl
  · obtain ⟨-, -, htrace⟩ := heffect.rest
    rw [endCycle_fr] at hc
    rw [endCycle_trace_of_faulted hc, htrace]
    rfl

/-! The first step of a run. -/

/-- A run that ended was in a final state already, or took a step and ended under the fuel left. -/
theorem runToEnd_cases {fuel : Nat} {s t : State} (h : runToEnd fuel s = some t) :
    (s.control ≠ .running ∧ t = s) ∨ ∃ k u, fuel = k + 1 ∧ step s = .next u ∧ runToEnd k u = some t := by
  by_cases hrunning : s.control = .running
  · cases fuel with
    | zero => simp [runToEnd, hrunning] at h
    | succ k =>
      obtain ⟨u, hu⟩ := runningAlwaysSteps s hrunning
      simp only [runToEnd, hrunning, hu, if_true] at h
      exact .inr ⟨k, u, rfl, hu, h⟩
  · refine .inl ⟨hrunning, ?_⟩
    cases fuel <;> simpa [runToEnd, hrunning, eq_comm] using h

/-- Induction along a run that ends in `t`: from its end back, step by step. -/
theorem runToEnd_induction {P : Nat → State → Prop} {t : State} (hfinal : t.control ≠ .running → ∀ k, P k t)
    (hstep : ∀ k s u, step s = .next u → runToEnd k u = some t → P k u → P (k + 1) s) {fuel : Nat} {s : State}
    (h : runToEnd fuel s = some t) : P fuel s := by
  induction fuel generalizing s with
  | zero =>
    obtain ⟨hs, rfl⟩ | ⟨k, u, hk, -, -⟩ := runToEnd_cases h
    · exact hfinal hs 0
    · cases hk
  | succ k ih =>
    obtain ⟨hs, rfl⟩ | ⟨k', u, hk, hu, hrun⟩ := runToEnd_cases h
    · exact hfinal hs (k + 1)
    · cases hk
      exact hstep k s u hu hrun (ih hrun)

theorem runToEnd_of_final {s : State} (h : s.control ≠ .running) (fuel : Nat) : runToEnd fuel s = some s := by
  cases fuel <;> simp [runToEnd, h]

theorem runToEnd_of_step {s u : State} (h : step s = .next u) (fuel : Nat) :
    runToEnd (fuel + 1) s = runToEnd fuel u := by
  simp [runToEnd, step_next_running h, h]

end Sys2Proof.Machine
end

section
/-! The statements of spec/40_execution_cycle.md on the runs: what a run that halts has dispatched (R95), and that a run
that ended has ended (R91, R100). -/

namespace Sys2Proof.Machine

/-- A step counts one dispatch if it completes and none if it faults (R95). -/
theorem step_dispatches {s t : State} (h : step s = .next t) :
    t.dispatches = s.dispatches + if t.fr.cause = 0 then 1 else 0 := by
  unfold State.dispatches
  split
  · obtain ⟨w, -, htrace⟩ := step_trace_of_completed h ‹_›
    rw [htrace, List.length_append, List.length_singleton]
  · rw [step_trace_of_faulted h ‹_›, Nat.add_zero]

/-- Every completed cycle counts once. -/
theorem Completes.dispatches {k : Nat} {s t : State} (h : Completes k s t) : t.dispatches = s.dispatches + k := by
  induction k generalizing s with
  | zero => rw [h, Nat.add_zero]
  | succ k ih =>
    obtain ⟨u, hstep, hcause, hrest⟩ := h
    calc t.dispatches = u.dispatches + k := ih hrest
      _ = s.dispatches + 1 + k := by rw [step_dispatches hstep, if_pos hcause]
      _ = s.dispatches + (k + 1) := by omega

/-- A run that halts starts with no fault: a faulted state is final, and is not HALTED. -/
theorem cause_of_halted_run {fuel : Nat} {s t : State} (h : runToEnd fuel s = some t) (ht : t.control = .halted) :
    s.fr.cause = 0 := by
  obtain ⟨-, rfl⟩ | ⟨k, u, -, hstep, -⟩ := runToEnd_cases h
  · exact ((control_halted_iff t).mp ht).2
  · exact ((control_running_iff s).mp (step_next_running hstep)).2

/-- A run that halts consists of completed cycles. -/
theorem completes_of_halted_run {fuel : Nat} {s t : State} (h : runToEnd fuel s = some t) (ht : t.control = .halted) :
    ∃ k, Completes k s t := by
  refine runToEnd_induction (P := fun _ s => ∃ k, Completes k s t) (fun _ _ => ⟨0, rfl⟩) ?_ h
  intro fuel s u hstep hrun ⟨k, hk⟩
  exact ⟨k + 1, u, hstep, cause_of_halted_run hrun ht, hk⟩

/-- Settles O15: a halted run's cycles all complete, by induction on the fuel, and each completed cycle counts once. -/
theorem haltedRunCountsDispatches : Obligations.HaltedRunCountsDispatches := by
  refine ⟨fun s t => step_dispatches, fun fuel s t h ht => ?_⟩
  obtain ⟨k, hk⟩ := completes_of_halted_run h ht
  obtain ⟨hrun, -⟩ := (control_halted_iff t).mp ht
  exact ⟨k, hk, hk.dispatches, hrun⟩

/-- A run ends in a state that is not RUNNING. -/
theorem control_of_runToEnd {fuel : Nat} {s t : State} (h : runToEnd fuel s = some t) : t.control ≠ .running :=
  runToEnd_induction (P := fun _ _ => t.control ≠ .running) (fun hfinal _ => hfinal) (fun _ _ _ _ _ ih => ih) h

/-- More fuel changes nothing of a run that ended. -/
theorem runToEnd_add {fuel : Nat} {s t : State} (h : runToEnd fuel s = some t) (more : Nat) :
    runToEnd (fuel + more) s = some t := by
  refine runToEnd_induction (P := fun k s => runToEnd (k + more) s = some t) ?_ ?_ h
  · intro hfinal k
    exact runToEnd_of_final hfinal _
  · intro k s u hstep _ ih
    rw [Nat.add_right_comm, runToEnd_of_step hstep]
    exact ih

/-- Settles O16: a run's end is not RUNNING, so neither more fuel nor a step goes on from it. -/
theorem endedRunIsFinal : Obligations.EndedRunIsFinal :=
  fun _ m _ _ h => ⟨runToEnd_add h m, fun _ hstep => control_of_runToEnd h (step_next_running hstep)⟩

end Sys2Proof.Machine
end

section
/-! The statements of spec/40_execution_cycle.md on one step: what it runs (R98), the pc and the trace it leaves (R93,
R101, R102), the one write it makes (R97) and where there is none (R91). -/

namespace Sys2Proof.Machine

/-! The step (R91, R98). -/

/-- Settles O8: the fetch answers a word exactly below N, and the end of a cycle that fetched a word depends on whether
its instruction took a fault. -/
theorem stepRunsDecodedInstruction : Obligations.StepRunsDecodedInstruction := by
  intro s hrunning
  rw [step_running hrunning]
  refine ⟨fun hlen => cycle_of_no_word (fetch_eq_none_iff.mpr hlen), ?_⟩
  rintro w i hfetch rfl
  obtain ⟨t, hexec, heffect⟩ := exec_effect (decode w) (fetchedState s w)
  refine ⟨t, by rw [← fetchedState_eq, hexec], ?_⟩
  rw [cycle_of_word hfetch hexec, endCycle_of_fetched heffect.fetched_of_fetchedState]
  simp only [traceRecord, nextIndex_eq]

/-- Settles O9: by the control states, of which only RUNNING runs a cycle. -/
theorem noStepOutsideRunning : Obligations.NoStepOutsideRunning :=
  fun _ => ⟨fun hhalted => by rw [step, hhalted], fun hfaulted => by rw [step, hfaulted], fun _ => step_next_running⟩

/-! The pc (R93). -/

/-- An instruction that is no control transfer leaves the pc it finds. -/
theorem Effect.pc_of_no_transfer {i : Instr} {s t : State} (h : Effect i s t)
    (hi : i.fields.opcode.toNat ∉ [0x09, 0x0A, 0x0B, 0x0C]) : t.pc = s.pc := by
  cases h
  case pc v h hw =>
    obtain ⟨v, rfl⟩ | ⟨a, rfl⟩ | ⟨a, b, c, rfl⟩ | ⟨a, b, c, rfl⟩ := hw <;> simp [Instr.fields] at hi
  all_goals subst_vars; rfl

/-- Settles O11: the fetch increments the pc, and neither a fault nor an instruction of these opcodes writes it. -/
theorem pcAdvancesByOne : Obligations.PcAdvancesByOne := by
  intro s t w hfetch hstep hopcode
  obtain ⟨u, -, heffect, rfl⟩ := step_of_word hfetch hstep
  rw [← opcode_decode] at hopcode
  rw [endCycle_pc, heffect.pc_of_no_transfer hopcode]
  rfl

/-! The trace (R101, R102). -/

/-- Settles O12: the record is made of the fetch and of the state the cycle leaves. -/
theorem completedCycleEmitsTraceRecord : Obligations.CompletedCycleEmitsTraceRecord := by
  refine fun s t h => ⟨fun hc => ?_, step_trace_of_faulted h⟩
  obtain ⟨w, hfetch, htrace⟩ := step_trace_of_completed h hc
  refine ⟨w, hfetch, ?_⟩
  rw [htrace, traceRecord, nextIndex_eq]

theorem Write.apply_trace (w : Write) (s : State) (l : List TraceRecord) :
    w.apply { s with trace := l } = { w.apply s with trace := l } := by
  cases w <;> rfl

/-- No instruction reads the trace. -/
theorem exec_withTrace {i : Instr} {s t : State} (l : List TraceRecord) (h : exec i s = .next t) :
    exec i { s with trace := l } = .next { t with trace := l } := by
  obtain ⟨e, rfl, h'⟩ | ⟨rfl, h'⟩ := exec_of_readsAgree (s := s) (s' := { s with trace := l })
    ⟨rfl, rfl, fun _ _ => rfl, fun _ _ _ => rfl⟩ h
  · exact h'
  · rw [h', Write.apply_trace]

/-- The end of a cycle that fetched a word appends the same records to any trace. -/
theorem endCycle_withTrace {s : State} {f : Fetched} (hf : s.fetched = some f) :
    ∃ r, s.endCycle.trace = s.trace ++ r ∧
      ∀ l, State.endCycle { s with trace := l } = { s.endCycle with trace := l ++ r } := by
  by_cases hc : s.fr.cause = 0
  · refine ⟨[traceRecord f s], endCycle_trace_of_completed hf hc, fun l => ?_⟩
    rw [endCycle_of_completed hf hc, endCycle_of_completed (s := { s with trace := l }) hf hc]
    rfl
  · refine ⟨[], by rw [endCycle_trace_of_faulted hc, List.append_nil], fun l => ?_⟩
    rw [endCycle_of_faulted hc, endCycle_of_faulted (s := { s with trace := l }) hc, List.append_nil]

/-- Settles O13: neither the fetch nor an instruction reads the trace, and the cycle's end only appends to it. -/
theorem traceIsOutputOnly : Obligations.TraceIsOutputOnly := by
  intro s t l h
  obtain ⟨hrunning, hcases⟩ := step_cases h
  rw [step_running (s := { s with trace := l }) hrunning]
  obtain ⟨hnone, rfl⟩ | ⟨w, u, hfetch, hexec, heffect, rfl⟩ := hcases
  · refine ⟨[], (List.append_nil _).symm, ?_⟩
    rw [cycle_of_no_word (s := { s with trace := l }) hnone, List.append_nil]
    rfl
  · obtain ⟨-, -, htrace⟩ := heffect.rest
    obtain ⟨r, hr, hend⟩ := endCycle_withTrace heffect.fetched_of_fetchedState
    refine ⟨r, by rw [hr, htrace]; rfl, ?_⟩
    rw [cycle_of_word (s := { s with trace := l }) hfetch (exec_withTrace l hexec), hend]

/-! The one write (R97). -/

/-- The register an instruction writes is the one field A names (R75). -/
theorem fieldA_of_writesReg {w : InstrWord} {a : Byte} (h : writesReg (decode w) = some a) : a = fieldA w := by
  simp only [decode, instrOf, fieldsOf] at h
  cases hop : decodeOp (fieldOpcode w)
  all_goals simp only [hop, writesReg] at h; cases h
  all_goals rfl

/-- A step that fetched a word leaves every register but the one field A names. -/
theorem step_regs_but_fieldA {s t : State} {w : InstrWord} (hfetch : s.prog.fetch (u32 s.pc) = some w)
    (h : step s = .next t) : SameRegsBut (fieldA w).toNat s t := by
  obtain ⟨u, -, heffect, rfl⟩ := step_of_word hfetch h
  intro r hr
  rw [endCycle_x, heffect.reg_of_unwritten]
  · rfl
  · rintro a ha rfl
    exact hr (congrArg BitVec.toNat (fieldA_of_writesReg ha))

/-- A sw takes a fault, or writes the data word its field B's register addresses (R122). -/
theorem exec_sw_cases {a b : Byte} {s t : State} (h : exec (.sw a b) s = .next t) :
    (∃ e, t = s.takeFault e) ∨
      ∃ v u, s.reg? b = some v ∧ s.ValidAddr v ∧ t = s.memWrite (s32 v).toNat u := by
  rw [exec_eq, Host.Outcome.next.injEq] at h
  cases hdue : dueFault (.sw a b) s with
  | some e => exact .inl ⟨e, by rw [← h, hdue]; rfl⟩
  | none =>
    have hb : b.toNat < s.numRegs := lt_of_firstBadReg (firstBadReg_of_not_due hdue) (.b, b) (by simp [usedRegs])
    exact .inr ⟨s.reg b.toNat, s.reg a.toNat, reg?_of_lt s b hb, validAddr_of_not_due hdue, by rw [← h, hdue]; rfl⟩

theorem decode_of_opcode_sw {w : InstrWord} (h : fieldOpcode w = 0x04) : decode w = .sw (fieldA w) (fieldB w) := by
  simp only [decode, instrOf, fieldsOf, h]
  rfl

/-- Settles O14: only a sw writes data memory, at the address it checked, and a sw writes no register. -/
theorem atMostOneWritePerCycle : Obligations.AtMostOneWritePerCycle := by
  intro s t w hfetch hstep
  by_cases hsw : fieldOpcode w = 0x04
  · obtain ⟨u, hexec, -, rfl⟩ := step_of_word hfetch hstep
    rw [decode_of_opcode_sw hsw] at hexec
    obtain ⟨e, rfl⟩ | ⟨v, value, hv, hvalid, rfl⟩ := exec_sw_cases hexec
    · exact .inl ⟨step_regs_but_fieldA hfetch hstep, fun k => by rw [endCycle_mem]; rfl⟩
    · refine .inr ⟨fun k => by rw [endCycle_x]; rfl, hsw, v, hv, hvalid, fun k hk => ?_⟩
      rw [endCycle_mem, memWrite_mem, mem_read_write, if_neg hk]
      rfl
  · refine .inl ⟨step_regs_but_fieldA hfetch hstep, fun k => ?_⟩
    rw [step_mem_of_no_sw hstep]
    intro w' hfetch'
    rwa [← Option.some.inj (hfetch.symm.trans hfetch')]

end Sys2Proof.Machine
end

section
/-! The statement on the trace line (spec/40_execution_cycle.md R103). -/

namespace Sys2Proof.Machine.Adapters

theorem hexDigits_length (n v : Nat) : (hexDigits n v).length = n := by
  induction n generalizing v with
  | zero => rfl
  | succ n ih => rw [hexDigits, List.length_append, ih, List.length_singleton]

/-- Settles O52: a group of n digits has n digits, and the registers give one group each. -/
theorem traceLineDigitCounts : Obligations.TraceLineDigitCounts := by
  intro sel r
  simp only [traceDigits, List.map_cons, hexDigits_length, List.map_map, Function.comp_def, List.map_const']

end Sys2Proof.Machine.Adapters
end

section
/-! The statements of spec/41_halt_nop.md on halt and nop (R110, R111), and what they share: the cycle of an instruction
that takes no fault. -/

namespace Sys2Proof.Machine

/-! The arms, and the words that reach them. -/

theorem exec_halt (s : State) : exec .halt s = .next s.clearRun := rfl

theorem exec_nop (s : State) : exec .nop s = .next s := rfl

theorem decode_of_opcode_nop {w : InstrWord} (h : fieldOpcode w = 0x01) : decode w = .nop := by
  simp only [decode, instrOf, fieldsOf, h]
  rfl

theorem clearRun_onlyRun (s : State) : OnlyRun s s.clearRun :=
  ⟨fun _ => rfl, rfl, fun _ => rfl, rfl, clearRun_params s, rfl, rfl, rfl⟩

/-! The cycle. -/

/-- In RUNNING, an instruction that leaves FR completes its cycle, which counts as one dispatch (R90, R95). -/
theorem step_of_exec_fr {s u : State} {w : InstrWord} (hrunning : s.control = .running)
    (hfetch : s.prog.fetch (u32 s.pc) = some w) (hexec : exec (decode w) (fetchedState s w) = .next u)
    (hfr : u.fr = s.fr) : step s = .next u.endCycle ∧ u.endCycle.dispatches = s.dispatches + 1 := by
  obtain ⟨-, hcause⟩ := (control_running_iff s).mp hrunning
  have hstep : step s = .next u.endCycle := by rw [step_running hrunning, cycle_of_word hfetch hexec]
  refine ⟨hstep, ?_⟩
  rw [step_dispatches hstep, endCycle_fr, hfr, if_pos hcause]

/-- In RUNNING, the cycle of an instruction that does nothing changes the pc and counts as one dispatch, and leaves
every register, the data memory, RUN and FR (R93). -/
theorem step_of_exec_nothing {s : State} {w : InstrWord} (hrunning : s.control = .running)
    (hfetch : s.prog.fetch (u32 s.pc) = some w)
    (hexec : exec (decode w) (fetchedState s w) = .next (fetchedState s w)) :
    ∃ t, step s = .next t ∧ t.pc = s.pc + 1 ∧ t.dispatches = s.dispatches + 1 ∧ SameRegs s t ∧ SameMem s t ∧
      SameStatus s t := by
  obtain ⟨hstep, hdispatches⟩ := step_of_exec_fr hrunning hfetch hexec rfl
  refine ⟨_, hstep, ?pc, hdispatches, ?regs, ?mem, ?run, ?fr⟩
  case pc => rw [endCycle_pc, fetchedState_eq]
  case regs => intro r; rw [endCycle_x]; rfl
  case mem => intro a; rw [endCycle_mem]; rfl
  case run => rw [endCycle_run]; rfl
  case fr => rw [endCycle_fr]; rfl

/-! The statements. -/

/-- Settles O17: halt's one effect is clearing RUN, so its cycle completes and leaves RUN = 0 with no fault, which is
HALTED. -/
theorem haltStopsTheCore : Obligations.HaltStopsTheCore := by
  refine ⟨fun w => (decode_eq_halt_iff w).mpr, fun s => ⟨_, exec_halt s, clearRun_run s, clearRun_onlyRun s⟩, ?_⟩
  intro s w hrunning hfetch hopcode
  have hexec : exec (decode w) (fetchedState s w) = .next (fetchedState s w).clearRun := by
    rw [(decode_eq_halt_iff w).mpr hopcode, exec_halt]
  obtain ⟨hstep, hdispatches⟩ := step_of_exec_fr hrunning hfetch hexec rfl
  have hhalted : (fetchedState s w).clearRun.endCycle.control = .halted := by
    obtain ⟨-, hcause⟩ := (control_running_iff s).mp hrunning
    rw [control_halted_iff, endCycle_run, endCycle_fr]
    exact ⟨clearRun_run _, hcause⟩
  obtain ⟨hstop, -, -⟩ := noStepOutsideRunning (fetchedState s w).clearRun.endCycle
  refine ⟨_, hstep, hhalted, ?pc, hdispatches, ?regs, ?mem, hstop hhalted⟩
  case pc => rw [endCycle_pc, clearRun_pc, fetchedState_eq]
  case regs => intro r; rw [endCycle_x]; rfl
  case mem => intro a; rw [endCycle_mem]; rfl

/-- Settles O18: nop's effect is none, so its cycle is the fetch and the cycle's end. -/
theorem nopChangesNothing : Obligations.NopChangesNothing := by
  refine ⟨fun _ => decode_of_opcode_nop, exec_nop, fun s w hrunning hfetch hopcode => ?_⟩
  refine step_of_exec_nothing hrunning hfetch ?_
  rw [decode_of_opcode_nop hopcode, exec_nop]

end Sys2Proof.Machine
end

section
/-! The statements of spec/42_li_lw_sw.md on li, lw and sw (R120, R121, R122), and what they share with the other
instructions: the fault due is taken as R186 says, and a write of one register or data word leaves the rest. -/

namespace Sys2Proof.Machine

/-! Faults. -/

/-- Taking a fault records its code and detail with the cycle's fetch, and writes nothing but FR (R186). -/
theorem takeFault_faults (s : State) (e : FaultEvent) : Faults e.code e.info s (s.takeFault e) := by
  refine ⟨by rw [takeFault_fr, record_cause], ?info, fun f hf => ?fetch,
    fun _ => rfl, rfl, fun _ => rfl, rfl, takeFault_params s e, rfl, rfl, rfl⟩
  case info => rw [takeFault_fr]; cases s.fetched <;> rfl
  case fetch => rw [takeFault_fr, hf, record_fetched]; exact ⟨rfl, rfl, rfl⟩

/-- The fault an instruction is due is taken. -/
theorem exec_faults_of_due {i : Instr} {s : State} {e : FaultEvent} (h : dueFault i s = some e) :
    ∃ t, exec i s = .next t ∧ Faults e.code e.info s t :=
  ⟨s.takeFault e, by rw [exec_eq, h]; rfl, takeFault_faults s e⟩

/-- Every instruction takes RegIndexOutOfRange for its first used field that names no register (R182). -/
theorem regFaults (i : Instr) : RegFaults i :=
  fun _ _ _ h => exec_faults_of_due (dueFault_of_badReg h)

/-- No field is bad if every used field names a register. -/
theorem firstBadReg_eq_none {n : Nat} {i : Instr} (h : ∀ p ∈ usedRegs i, p.2.toNat < n) : firstBadReg n i = none :=
  List.find?_eq_none.mpr fun p hp => by simpa using h p hp

/-- An instruction that checks the address in x[B], its registers being valid, takes MemAddrOutOfRange for an invalid
one, with the address as detail (R183). -/
theorem exec_faults_of_invalidAddr {i : Instr} {a b : Byte} {s : State} {v : Word} (hi : i = .lw a b ∨ i = .sw a b)
    (ha : a.toNat < s.numRegs) (hb : s.reg? b = some v) (hv : ¬ s.ValidAddr v) :
    ∃ t, exec i s = .next t ∧ Faults 3 v s t := by
  obtain ⟨hlt, -⟩ := reg?_eq_some hb
  have hused : ∀ p ∈ [(RegField.a, a), (RegField.b, b)], p.2.toNat < s.numRegs := by simp [ha, hlt]
  have hgood : firstBadReg s.numRegs i = none := by
    obtain rfl | rfl := hi <;> exact firstBadReg_eq_none hused
  refine exec_faults_of_due (e := .memAddrOutOfRange v) ?_
  obtain rfl | rfl := hi <;> simp only [dueFault, hgood, hb, dueFault.addrFault, if_neg hv]

/-! Writes. -/

/-- An instruction that answers with the write of one register puts the value there and changes nothing else. -/
theorem exec_onlyReg {i : Instr} {a : Byte} {s : State} {v : Word} (ha : a.toNat < s.numRegs)
    (h : exec i s = .next (s.setReg a.toNat v)) :
    ∃ t, exec i s = .next t ∧ t.reg? a = some v ∧ OnlyReg a.toNat s t :=
  ⟨_, h, by rw [reg?_setReg s ha, if_pos rfl], onlyReg_setReg a.toNat v s⟩

theorem onlyMemWord_memWrite (k : Nat) (v : Word) (s : State) : OnlyMemWord k s (s.memWrite k v) :=
  ⟨fun _ => rfl, rfl, fun j hj => by rw [memWrite_mem, mem_read_write, if_neg hj], ⟨rfl, rfl⟩,
    memWrite_params s k v, rfl, rfl, rfl⟩

/-- A li with a valid register writes the immediate to it (R120). -/
theorem exec_li_of_lt {a : Byte} {s : State} (ha : a.toNat < s.numRegs) (imm : Word) :
    exec (.li a imm) s = .next (s.setReg a.toNat imm) := by
  rw [exec, execLi, checkA_of_lt a ha]
  rfl

/-! The words that reach the arms. -/

theorem decode_of_opcode_li {w : InstrWord} (h : fieldOpcode w = 0x02) : decode w = .li (fieldA w) (fieldImm w) := by
  simp only [decode, instrOf, fieldsOf, h]
  rfl

theorem decode_of_opcode_lw {w : InstrWord} (h : fieldOpcode w = 0x03) : decode w = .lw (fieldA w) (fieldB w) := by
  simp only [decode, instrOf, fieldsOf, h]
  rfl

/-! The statements. -/

/-- Settles O20: past its one register check, li writes the immediate to that register. -/
theorem liLoadsTheImmediate : Obligations.LiLoadsTheImmediate :=
  ⟨fun _ => decode_of_opcode_li, fun _ imm => ⟨regFaults _, fun _ ha => exec_onlyReg ha (exec_li_of_lt ha imm)⟩⟩

/-- Settles O21: past its register checks, lw writes the data word at a valid address to its register, and faults on an
invalid one. -/
theorem lwLoadsTheWord : Obligations.LwLoadsTheWord := by
  refine ⟨fun _ => decode_of_opcode_lw, fun a b => ⟨regFaults _, fun s v ha hb => ?_⟩⟩
  refine ⟨fun hv => ?valid, fun hv => ?invalid⟩
  case valid => exact exec_onlyReg ha (exec_lw_of_valid ha hb hv)
  case invalid => exact exec_faults_of_invalidAddr (.inl rfl) ha hb hv

/-- Settles O22: past its register checks, sw writes its register to the data word at a valid address, which then reads
that value, and faults on an invalid one. -/
theorem swStoresTheWord : Obligations.SwStoresTheWord := by
  refine ⟨fun _ => decode_of_opcode_sw, fun a b => ⟨regFaults _, fun s u v ha hb => ?_⟩⟩
  refine ⟨fun hv => ?valid, fun hv => ?invalid⟩
  case valid =>
    refine ⟨_, exec_sw_of_valid ha hb hv, ?_, onlyMemWord_memWrite _ u s⟩
    rw [memWrite_mem, mem_read_write, if_pos rfl]
  case invalid =>
    obtain ⟨hlt, -⟩ := reg?_eq_some ha
    exact exec_faults_of_invalidAddr (.inr rfl) hlt hb hv

end Sys2Proof.Machine
end

section
/-! The statements of spec/43_arithmetic.md on add, sub, mult and div (R130 to R134): what each answers once its
registers are read, and the quotient and the readings that R134 compares. -/

namespace Sys2Proof.Machine

/-- Decoding reads the fields by the opcode (R72, R75). -/
theorem decode_of_opcode {w : InstrWord} {opcode : Byte} (h : fieldOpcode w = opcode) :
    decode w = instrOf { fieldsOf w with opcode := opcode } := by
  subst h
  rfl

/-! What the instructions answer. -/

section
variable {a b c : Byte} {s : State} {n m : Word}
  (ha : a.toNat < s.numRegs) (hb : s.reg? b = some n) (hc : s.reg? c = some m)
include ha hb hc

/-- With valid registers, the shared form with no fault of its own writes what it computes from the values read. -/
theorem threeReg_of_reads (f : Word → Word → Word) :
    threeReg (fun n m => .ok (f n m)) a b c s = .next (s.setReg a.toNat (f n m)) := by
  obtain ⟨hltb, rfl⟩ := reg?_eq_some hb
  obtain ⟨hltc, rfl⟩ := reg?_eq_some hc
  exact threeReg_of_lt _ ⟨ha, hltb, hltc⟩

theorem exec_add_of_reads : exec (.add a b c) s = .next (s.setReg a.toNat (add32 n m)) :=
  threeReg_of_reads ha hb hc add32

theorem exec_sub_of_reads : exec (.sub a b c) s = .next (s.setReg a.toNat (sub32 n m)) :=
  threeReg_of_reads ha hb hc sub32

theorem exec_mult_of_reads : exec (.mult a b c) s = .next (s.setReg a.toNat (mul32 n m)) :=
  threeReg_of_reads ha hb hc mul32

/-- A div with valid registers is due the fault of its dividend and divisor, if any (R184, R185, R188). -/
theorem dueFault_div_of_reads : dueFault (.div a b c) s = dueFault.divFault (some n) (some m) := by
  obtain ⟨hltb, -⟩ := reg?_eq_some hb
  obtain ⟨hltc, -⟩ := reg?_eq_some hc
  have hgood : firstBadReg s.numRegs (.div a b c) = none := firstBadReg_eq_none (by simp [usedRegs, ha, hltb, hltc])
  simp only [dueFault, hgood, hb, hc]

/-- A div that is due no fault writes the quotient (R133). -/
theorem exec_div_of_reads (hzero : m ≠ 0) (hoverflow : ¬ (n = 0x80000000 ∧ m = 0xFFFFFFFF)) :
    exec (.div a b c) s = .next (s.setReg a.toNat (div32 n m)) := by
  have hdue : dueFault (.div a b c) s = none := by
    rw [dueFault_div_of_reads ha hb hc, dueFault.divFault, if_neg hzero, if_neg hoverflow]
  obtain ⟨-, rfl⟩ := reg?_eq_some hb
  obtain ⟨-, rfl⟩ := reg?_eq_some hc
  rw [exec_eq, hdue]
  rfl

end

/-- An instruction that answers with the write of one register leaves the value there. -/
theorem exec_reg?_of_setReg {i : Instr} {a : Byte} {s : State} {v : Word} (ha : a.toNat < s.numRegs)
    (h : exec i s = .next (s.setReg a.toNat v)) : ∃ t, exec i s = .next t ∧ t.reg? a = some v := by
  obtain ⟨t, hexec, hreg, -⟩ := exec_onlyReg ha h
  exact ⟨t, hexec, hreg⟩

/-! The results (R134). -/

/-- A quotient fits a word unless it is the one that DivOverflow is for (R185). -/
theorem s32_div32 {n d : Word} (h : ¬ (n = 0x80000000 ∧ d = 0xFFFFFFFF)) :
    s32 (div32 n d) = tdiv (s32 n) (s32 d) := by
  rw [div32_eq]
  exact BitVec.toInt_sdiv_of_ne_or_ne n d (not_and_or.mp h)

/-- Reading a pattern unsigned and keeping it mod 2^32 gives it back (R11). -/
theorem bits32_u32 (v : Word) : bits32 (u32 v) = v := by
  rw [bits32, u32, BitVec.ofInt_natCast, BitVec.ofNat_toNat, BitVec.setWidth_eq]

theorem add32_eq_unsigned (n m : Word) : add32 n m = bits32 ((u32 n : Int) + u32 m) :=
  calc add32 n m = n + m := add32_eq n m
    _ = bits32 (u32 n) + bits32 (u32 m) := by rw [bits32_u32, bits32_u32]
    _ = bits32 ((u32 n : Int) + u32 m) := (BitVec.ofInt_add _ _).symm

theorem mul32_eq_unsigned (n m : Word) : mul32 n m = bits32 ((u32 n : Int) * u32 m) :=
  calc mul32 n m = n * m := mul32_eq n m
    _ = bits32 (u32 n) * bits32 (u32 m) := by rw [bits32_u32, bits32_u32]
    _ = bits32 ((u32 n : Int) * u32 m) := (BitVec.ofInt_mul _ _).symm

theorem sub32_eq_unsigned (n m : Word) : sub32 n m = bits32 ((u32 n : Int) - u32 m) :=
  calc sub32 n m = n - m := sub32_eq n m
    _ = bits32 (u32 n) - bits32 (u32 m) := by rw [bits32_u32, bits32_u32]
    _ = bits32 ((u32 n : Int) - u32 m) := by
      rw [bits32, bits32, bits32, Int.sub_eq_add_neg, BitVec.ofInt_add, BitVec.ofInt_neg, BitVec.sub_eq_add_neg]

/-! The statements. -/

/-- Settles O24: past its register checks, add writes the sum of the values read to its register. -/
theorem addWrapsTheSum : Obligations.AddWrapsTheSum :=
  ⟨fun _ => decode_of_opcode, fun _ _ _ => ⟨regFaults _, fun _ _ _ ha hb hc =>
    exec_onlyReg ha (exec_add_of_reads ha hb hc)⟩⟩

/-- Settles O25: past its register checks, sub writes the difference of the values read to its register. -/
theorem subWrapsTheDifference : Obligations.SubWrapsTheDifference :=
  ⟨fun _ => decode_of_opcode, fun _ _ _ => ⟨regFaults _, fun _ _ _ ha hb hc =>
    exec_onlyReg ha (exec_sub_of_reads ha hb hc)⟩⟩

/-- Settles O26: past its register checks, mult writes the product of the values read to its register. -/
theorem multKeepsTheLowHalf : Obligations.MultKeepsTheLowHalf :=
  ⟨fun _ => decode_of_opcode, fun _ _ _ => ⟨regFaults _, fun _ _ _ ha hb hc =>
    exec_onlyReg ha (exec_mult_of_reads ha hb hc)⟩⟩

/-- Settles O27: past its register checks, div takes the fault its operands are due, and writes the quotient where none
is. -/
theorem divRoundsTowardZero : Obligations.DivRoundsTowardZero := by
  refine ⟨fun _ => decode_of_opcode, fun a b c => ⟨regFaults _, fun s n d ha hb hc => ?_⟩⟩
  have hdue := dueFault_div_of_reads ha hb hc
  refine ⟨fun hzero => ?zero, fun ⟨hn, hd⟩ => ?overflow, fun hzero hoverflow => ?quotient⟩
  case zero =>
    refine exec_faults_of_due (e := .divByZero n) ?_
    rw [hdue, dueFault.divFault, if_pos hzero]
  case overflow =>
    have hzero : d ≠ 0 := by rw [hd]; decide
    refine exec_faults_of_due (e := .divOverflow n) ?_
    rw [hdue, dueFault.divFault, if_neg hzero, if_pos ⟨hn, hd⟩]
  case quotient => exact exec_onlyReg ha (exec_div_of_reads ha hb hc hzero hoverflow)

/-- Settles O28: the quotient fits a word, and rounding toward zero is floor division of magnitudes with the sign put
back. -/
theorem divQuotientBySigns : Obligations.DivQuotientBySigns := by
  intro a b c s n d ha hb hc hzero hoverflow
  obtain ⟨t, hexec, hreg⟩ := exec_reg?_of_setReg ha (exec_div_of_reads ha hb hc hzero hoverflow)
  have hq : (div32 n d).toInt = Int.tdiv n.toInt d.toInt := s32_div32 hoverflow
  refine ⟨t, div32 n d, hexec, hreg, fun hn _ => ?posPos, fun hn _ => ?negPos, fun hn _ => ?posNeg, fun hn _ => ?negNeg⟩
  case posPos => rw [hq, Int.tdiv_eq_ediv_of_nonneg hn]
  case negPos => rw [hq, ← Int.tdiv_eq_ediv_of_nonneg (by omega), Int.neg_tdiv, Int.neg_neg]
  case posNeg => rw [hq, ← Int.tdiv_eq_ediv_of_nonneg hn, Int.tdiv_neg, Int.neg_neg]
  case negNeg => rw [hq, ← Int.tdiv_eq_ediv_of_nonneg (by omega), Int.neg_tdiv_neg]

/-- Settles O29: sum, difference and product mod 2^32 are those of the patterns, and a pattern is its unsigned reading
mod 2^32. -/
theorem addSubMultIgnoreSignedness : Obligations.AddSubMultIgnoreSignedness := by
  intro a b c s n m ha hb hc
  refine ⟨exec_reg?_of_setReg ha ?add, exec_reg?_of_setReg ha ?sub, exec_reg?_of_setReg ha ?mult⟩
  case add => rw [exec_add_of_reads ha hb hc, add32_eq_unsigned]; rfl
  case sub => rw [exec_sub_of_reads ha hb hc, sub32_eq_unsigned]; rfl
  case mult => rw [exec_mult_of_reads ha hb hc, mul32_eq_unsigned]; rfl

end Sys2Proof.Machine
end

section
/-! The statements of spec/44_control_transfer.md on j, jr, beq and bne (R150 to R153): what each answers once its
registers are read, and the cycle after one that leaves the pc past the program. -/

namespace Sys2Proof.Machine

/-! Writes of the pc. -/

theorem setPc_onlyPc (s : State) (target : Word) : OnlyPc s (s.setPc target) :=
  ⟨fun _ => rfl, fun _ => rfl, ⟨rfl, rfl⟩, setPc_params s target, rfl, rfl, rfl⟩

/-- An instruction that answers with the write of the pc loads it and changes nothing else. -/
theorem exec_onlyPc {i : Instr} {s : State} {target : Word} (h : exec i s = .next (s.setPc target)) :
    ∃ t, exec i s = .next t ∧ t.pc = target ∧ OnlyPc s t :=
  ⟨_, h, setPc_pc s target, setPc_onlyPc s target⟩

/-! What the instructions answer. -/

/-- A j loads its immediate, whatever it is (R150). -/
theorem exec_j (imm : Word) (s : State) : exec (.j imm) s = .next (s.setPc imm) := rfl

/-- A jr with a valid register loads its value, unchecked (R151). -/
theorem exec_jr_of_reads {a : Byte} {s : State} {v : Word} (ha : s.reg? a = some v) :
    exec (.jr a) s = .next (s.setPc v) := by
  obtain ⟨hlt, rfl⟩ := reg?_eq_some ha
  rw [exec, execJr, checkA_of_lt a hlt]
  rfl

section
variable {a b c : Byte} {s : State} {u v z : Word}
  (ha : s.reg? a = some u) (hb : s.reg? b = some v) (hc : s.reg? c = some z)
include ha hb hc

/-- With valid registers, a branch loads x[C] if its condition holds of the values read, and leaves the pc if not. -/
theorem branchIf_of_reads (f : Word → Word → Bool) :
    branchIf f a b c s = .next (s.setPc (if f u v then z else s.pc)) := by
  obtain ⟨hlta, rfl⟩ := reg?_eq_some ha
  obtain ⟨hltb, rfl⟩ := reg?_eq_some hb
  obtain ⟨hltc, rfl⟩ := reg?_eq_some hc
  rw [branchIf_of_lt f ⟨hlta, hltb, hltc⟩]
  split <;> rfl

theorem exec_beq_of_reads : exec (.beq a b c) s = .next (s.setPc (if u = v then z else s.pc)) := by
  rw [exec, execBeq, branchIf_of_reads ha hb hc]
  simp only [beq_iff_eq]

theorem exec_bne_of_reads : exec (.bne a b c) s = .next (s.setPc (if u = v then s.pc else z)) := by
  rw [exec, execBne, branchIf_of_reads ha hb hc]
  simp only [bne_iff_ne, ite_not]

end

/-! The cycle. -/

/-- In RUNNING, the cycle of a transfer leaves the pc at its target, unchecked, and the core RUNNING with the same
program store and no fault (R150). -/
theorem step_of_exec_setPc {s : State} {w : InstrWord} {target : Word} (hrunning : s.control = .running)
    (hfetch : s.prog.fetch (u32 s.pc) = some w)
    (hexec : exec (decode w) (fetchedState s w) = .next ((fetchedState s w).setPc target)) :
    ∃ t, step s = .next t ∧ t.pc = target ∧ t.fr = s.fr ∧ t.prog = s.prog ∧ t.control = .running := by
  obtain ⟨hstep, -⟩ := step_of_exec_fr hrunning hfetch hexec rfl
  refine ⟨_, hstep, ?pc, ?fr, ?prog, ?running⟩
  case pc => rw [endCycle_pc, setPc_pc]
  case fr => rw [endCycle_fr]; rfl
  case prog => rw [endCycle_prog]; rfl
  case running =>
    rw [control_running_iff, endCycle_run, endCycle_fr]
    exact (control_running_iff s).mp hrunning

/-! The statements. -/

/-- Settles O30: j writes the pc and nothing else, so its cycle ends RUNNING at its immediate, and from an index past
the program the next fetch faults there. -/
theorem jLoadsThePc : Obligations.JLoadsThePc := by
  refine ⟨fun _ => decode_of_opcode, fun imm s => exec_onlyPc (exec_j imm s), ?_⟩
  intro s w hrunning hfetch hopcode hlen
  have hexec : exec (decode w) (fetchedState s w) = .next ((fetchedState s w).setPc (fieldImm w)) := by
    rw [decode_of_opcode hopcode]
    exact exec_j (fieldImm w) _
  obtain ⟨t, hstep, hpc, hfr, hprog, hrunning'⟩ := step_of_exec_setPc hrunning hfetch hexec
  obtain ⟨hfault, -⟩ := stepRunsDecodedInstruction t hrunning'
  exact ⟨t, _, hstep, hpc, hfr, hfault (by rwa [hprog, hpc]), hpc, by rw [← hpc]⟩

/-- Settles O31: past its one register check, jr loads the pc from that register. -/
theorem jrLoadsThePcFromARegister : Obligations.JrLoadsThePcFromARegister :=
  ⟨fun _ => decode_of_opcode, fun _ => ⟨regFaults _, fun _ _ ha => exec_onlyPc (exec_jr_of_reads ha)⟩⟩

/-- Settles O32: past its register checks, beq loads the pc from x[C] or leaves it, by the values read. -/
theorem beqBranchesWhenEqual : Obligations.BeqBranchesWhenEqual :=
  ⟨fun _ => decode_of_opcode, fun _ _ _ => ⟨regFaults _, fun _ _ _ _ ha hb hc =>
    exec_onlyPc (exec_beq_of_reads ha hb hc)⟩⟩

/-- Settles O33: past its register checks, bne leaves the pc or loads it from x[C], by the values read. -/
theorem bneBranchesWhenDifferent : Obligations.BneBranchesWhenDifferent :=
  ⟨fun _ => decode_of_opcode, fun _ _ _ => ⟨regFaults _, fun _ _ _ _ ha hb hc =>
    exec_onlyPc (exec_bne_of_reads ha hb hc)⟩⟩

end Sys2Proof.Machine
end

section
/-! The statements of spec/45_inc_dec.md on inc and dec (R160, R161): what each answers once its register is read. -/

namespace Sys2Proof.Machine

/-! What the instructions answer. -/

section
variable {a : Byte} {s : State} {v : Word} (ha : s.reg? a = some v)
include ha

/-- With a valid register, the shared form writes back what it computes from the value read. -/
theorem updateReg_of_reads (f : Word → Word) : updateReg f a s = .next (s.setReg a.toNat (f v)) := by
  obtain ⟨hlt, rfl⟩ := reg?_eq_some ha
  exact updateReg_of_lt f hlt

/-- An inc with a valid register wraps mod 2^32 and takes no fault (R160). -/
theorem exec_inc_of_reads : exec (.inc a) s = .next (s.setReg a.toNat (v + 1)) := by
  rw [exec, execInc, updateReg_of_reads ha, add32_eq]

/-- A dec with a valid register wraps mod 2^32 and takes no fault (R161). -/
theorem exec_dec_of_reads : exec (.dec a) s = .next (s.setReg a.toNat (v - 1)) := by
  rw [exec, execDec, updateReg_of_reads ha, sub32_eq]

/-- An instruction that answers with the write of the register read leaves the value there and changes nothing else. -/
theorem exec_onlyReg_of_reads {i : Instr} {u : Word} (h : exec i s = .next (s.setReg a.toNat u)) :
    ∃ t, exec i s = .next t ∧ t.reg? a = some u ∧ OnlyReg a.toNat s t := by
  obtain ⟨hlt, -⟩ := reg?_eq_some ha
  exact exec_onlyReg hlt h

end

/-! The statements. -/

/-- Settles O34: past its one register check, inc writes the value read plus one back to that register. -/
theorem incAddsOne : Obligations.IncAddsOne :=
  ⟨fun _ => decode_of_opcode, fun _ => ⟨regFaults _, fun _ _ ha => exec_onlyReg_of_reads ha (exec_inc_of_reads ha)⟩⟩

/-- Settles O35: past its one register check, dec writes the value read minus one back to that register. -/
theorem decSubtractsOne : Obligations.DecSubtractsOne :=
  ⟨fun _ => decode_of_opcode, fun _ => ⟨regFaults _, fun _ _ ha => exec_onlyReg_of_reads ha (exec_dec_of_reads ha)⟩⟩

end Sys2Proof.Machine
end

section
/-! The statement of spec/46_unrecognized.md on the unrecognized opcodes (R170). -/

namespace Sys2Proof.Machine

theorem exec_unrecognized (opcode : Byte) (s : State) : exec (.unrecognized opcode) s = .next s := rfl

/-- Settles O19: the opcodes of no row reach the unrecognized arm, which does nothing, so the cycle is the fetch and
the cycle's end, as nop's is. -/
theorem unrecognizedOpcodesChangeNothing : Obligations.UnrecognizedOpcodesChangeNothing := by
  refine ⟨fun w => (decode_eq_unrecognized_iff w).mpr, exec_unrecognized, fun s w hrunning hfetch hopcode => ?_⟩
  refine step_of_exec_nothing hrunning hfetch ?_
  rw [(decode_eq_unrecognized_iff w).mpr hopcode, exec_unrecognized]

end Sys2Proof.Machine
end

section
/-! The statements of spec/60_exceptions.md: the fault an instruction is due is the one it takes (R188), and what a cycle
that takes a fault leaves (R181, R186). -/

namespace Sys2Proof.Machine

/-- Settles O36: exec takes the fault due, or makes the instruction's one write, which leaves FR. -/
theorem faultTakenIffDue : Obligations.FaultTakenIffDue := by
  intro i s
  refine ⟨_, exec_eq i s, fun e hdue => ?due, fun hdue => ?notDue⟩
  case due => rw [hdue]; exact takeFault_faults s e
  case notDue => rw [hdue]; exact Write.apply_fr (writeOf i s) s

/-- Settles O37: the step with no word to fetch writes FR and leaves the pc and RUN. -/
theorem fetchOutOfRangeIsTaken : Obligations.FetchOutOfRangeIsTaken := by
  intro s hrunning hlen
  obtain ⟨hstep, -⟩ := stepRunsDecodedInstruction s hrunning
  obtain ⟨hrun, -⟩ := (control_running_iff s).mp hrunning
  have hcause := takeFault_cause_ne s.beginCycle (.fetchOutOfRange s.pc)
  exact ⟨_, hstep hlen, rfl, rfl, (control_faulted_iff _).mpr ⟨hrun, hcause⟩⟩

/-- An instruction that leaves a fault where there was none took the fault it was due (R188). -/
theorem exec_faulted {i : Instr} {s t : State} (h : exec i s = .next t) (hs : s.fr.cause = 0) (ht : t.fr.cause ≠ 0) :
    ∃ e, dueFault i s = some e ∧ t = s.takeFault e := by
  rw [exec_eq, Host.Outcome.next.injEq] at h
  cases hdue : dueFault i s with
  | some e => exact ⟨e, rfl, by rw [← h, hdue]; rfl⟩
  | none =>
    have hfr : t.fr = s.fr := by rw [← h, hdue]; exact Write.apply_fr (writeOf i s) s
    exact absurd (hfr ▸ hs) ht

/-- A step that ends with a fault had no word to fetch and took FetchOutOfRange, or took the fault that the instruction
fetched was due, after the pc increment; and it emitted no trace record (R186). -/
theorem step_faulted_cases {s t : State} (h : step s = .next t) (ht : t.fr.cause ≠ 0) :
    (s.prog.fetch (u32 s.pc) = none ∧ t = s.beginCycle.takeFault (.fetchOutOfRange s.pc)) ∨
      ∃ w e, s.prog.fetch (u32 s.pc) = some w ∧ dueFault (decode w) (fetchedState s w) = some e ∧
        t = ((fetchedState s w).takeFault e).beginCycle := by
  obtain ⟨hrunning, hnone | ⟨w, u, hfetch, hexec, -, rfl⟩⟩ := step_cases h
  · exact .inl hnone
  · obtain ⟨-, hs⟩ := (control_running_iff s).mp hrunning
    rw [endCycle_fr] at ht
    obtain ⟨e, hdue, rfl⟩ := exec_faulted hexec hs ht
    exact .inr ⟨w, e, hfetch, hdue, endCycle_of_faulted ht⟩

/-- Settles O38: taking a fault writes FR only, so before it the pc is the fetch's, and the control state follows from
RUN and FR. -/
theorem faultsArePrecise : Obligations.FaultsArePrecise := by
  intro s t h ht
  obtain ⟨hrun, -⟩ := (control_running_iff s).mp (step_next_running h)
  obtain ⟨hnone, rfl⟩ | ⟨w, e, hfetch, hdue, rfl⟩ := step_faulted_cases h ht
  · exact ⟨fun _ => rfl, fun _ => rfl, hrun, rfl, rfl, (control_faulted_iff _).mpr ⟨hrun, ht⟩, rfl,
      fun _ => ⟨rfl, rfl, rfl, rfl, rfl⟩, fun _ hword => nomatch hnone.symm.trans hword⟩
  · refine ⟨fun _ => rfl, fun _ => rfl, hrun, rfl, rfl, (control_faulted_iff _).mpr ⟨hrun, ht⟩, rfl,
      fun hnone => (nomatch hnone.symm.trans hfetch), fun w' hfetch' => ?_⟩
    obtain rfl : w = w' := Option.some.inj (hfetch.symm.trans hfetch')
    exact ⟨nextIndex_eq s.pc, rfl, rfl, e, by rw [← fetchedState_eq, hdue], rfl, rfl⟩

end Sys2Proof.Machine
end

section
/-! The statement of spec/70_reset_and_hazards.md on reset (R210, R211). -/

namespace Sys2Proof.Machine

/-- A program store made of a list of words fetches those words, and none past them (R24, R42). -/
theorem fetch_ofWords (ws : List InstrWord) (k : Nat) : (ProgramStore.ofWords ws).fetch k = ws[k]? := by
  have hread : (Cells.ofListFrom 0 ws).read k = ws.getD k 0 := by
    simpa only [Nat.zero_add] using read_ofListFrom 0 ws k
  simp only [ProgramStore.fetch, ProgramStore.ofWords, hread]
  split
  case isTrue hk => rw [List.getD_eq_getElem _ _ hk, List.getElem?_eq_getElem hk]
  case isFalse hk => rw [List.getElem?_eq_none (Nat.le_of_not_lt hk)]

/-- Settles O43: reset is a boot with the core's own parameters, whatever else its state holds. -/
theorem resetGivesEveryResetValue : Obligations.ResetGivesEveryResetValue := by
  intro s ws hlen
  have hboot : s.resetEvent ws = some { State.resetOf s.params with prog := ProgramStore.ofWords ws } := if_pos hlen
  obtain ⟨-, -, -, hparams⟩ := resetStateIsBootOfNothing
  refine ⟨_, hboot, hparams _ _ _ hboot, fun r hr => ?reg, fun a ha => if_pos ha, rfl, rfl, rfl, rfl,
    fetch_ofWords ws, (control_running_iff _).mpr ⟨rfl, rfl⟩⟩
  case reg => exact List.getElem?_replicate_of_lt hr

end Sys2Proof.Machine
end

section
/-! The statement of spec/70_reset_and_hazards.md on the program file (R214). -/

namespace Sys2Proof.Machine.Adapters

/-- Bytes that do not begin with a whole word are fewer than eight. -/
theorem length_lt_of_no_word {bs : List Byte}
    (h : ∀ b0 b1 b2 b3 b4 b5 b6 b7 rest, bs = b0 :: b1 :: b2 :: b3 :: b4 :: b5 :: b6 :: b7 :: rest → False) :
    bs.length < 8 :=
  match bs with
  | [] | [_] | [_, _] | [_, _, _] | [_, _, _, _] | [_, _, _, _, _] | [_, _, _, _, _, _] | [_, _, _, _, _, _, _] => by
    simp
  | _ :: _ :: _ :: _ :: _ :: _ :: _ :: _ :: _ => (h _ _ _ _ _ _ _ _ _ rfl).elim

/-- A loader that drops a partial last word takes every file, one word for each whole eight bytes. -/
theorem wordsOfBytes_dropPartial (order : Config.ByteOrder) (bs : List Byte) :
    ∃ ws, wordsOfBytes order .dropPartial bs = some ws ∧ ws.length = bs.length / 8 := by
  induction bs using wordsOfBytes.induct (tail := .dropPartial) with
  | case1 b0 b1 b2 b3 b4 b5 b6 b7 rest ih =>
    obtain ⟨ws, hws, hlen⟩ := ih
    refine ⟨wordOfBytes order b0 b1 b2 b3 b4 b5 b6 b7 :: ws, by rw [wordsOfBytes, hws, Option.map_some], ?_⟩
    simp only [List.length_cons]
    omega
  | case2 => exact ⟨[], rfl, rfl⟩
  | case3 _ htail => cases htail
  | case4 bs _ hword hne =>
    exact ⟨[], wordsOfBytes.eq_4 order bs hword hne, (Nat.div_eq_of_lt (length_lt_of_no_word hword)).symm⟩

/-- A loader that refuses a partial last word differs from one that drops it on the files with a partial last word. -/
theorem wordsOfBytes_refuse (order : Config.ByteOrder) (bs : List Byte) :
    wordsOfBytes order .refuse bs = if bs.length % 8 = 0 then wordsOfBytes order .dropPartial bs else none := by
  induction bs using wordsOfBytes.induct (tail := .refuse) with
  | case1 b0 b1 b2 b3 b4 b5 b6 b7 rest ih =>
    have hmod : (b0 :: b1 :: b2 :: b3 :: b4 :: b5 :: b6 :: b7 :: rest).length % 8 = rest.length % 8 :=
      Nat.add_mod_right rest.length 8
    rw [wordsOfBytes, wordsOfBytes, ih, hmod]
    split <;> rfl
  | case2 => rfl
  | case3 bs _ hword hne =>
    have hpos : 0 < bs.length := List.length_pos_iff.mpr hne
    have hlt := length_lt_of_no_word hword
    rw [if_neg (by omega), wordsOfBytes.eq_3 order bs hword hne]
  | case4 _ htail => cases htail

/-- Settles O51: both loaders take eight bytes per word, and only a partial last word tells them apart. -/
theorem loaderCountsEightBytesPerWord : Obligations.LoaderCountsEightBytesPerWord :=
  fun order bs => ⟨wordsOfBytes_dropPartial order bs, fun h => by rw [wordsOfBytes_refuse, if_neg h],
    fun h => by rw [wordsOfBytes_refuse, if_pos h]⟩

end Sys2Proof.Machine.Adapters
end
